-- ==== Sys2Proof/Word.lean ====
section
/-! DEFINITION. The two word types of the engine (spec/00_scope.md R8): every value is unsigned, a word has
32 bits, a byte 8, bit 0 is the least significant. The operators of R9 on words are BitVec's own `+`, `^^^`,
`&&&`, `~~~`, `>>>`, all modulo 2^32; rotation is in Machine/Operands.lean. -/

namespace Sys2Proof

/-- A word: an unsigned 32-bit value (R8). -/
abbrev Word := BitVec 32

/-- A byte: an unsigned 8-bit value (R8). -/
abbrev Byte := BitVec 8

end Sys2Proof
end

