-- ==== Sys2Proof/Config.lean ====
section
/-! DEFINITION. What the spec leaves open, as constants WITHOUT A BODY: nothing in Lean can evaluate them, so a
claim holds whatever they are. The open parameter `MSG_BYTES` is a field of State instead (log 3), so that every
claim over all states is a claim for every size of the message memory. -/

namespace Sys2Proof

/-- `STEP_CYCLES`, the number of clock cycles one micro-operation takes: the open parameter of 00_scope.md R7 and
92_eei_decisions.md D24. "No rule depends on it" (70_reset_and_hazards.md R262), and nothing in the model reads
it (log 16). -/
opaque Config.stepCycles : Nat

/-- The FREE VALUE a read of DIGEST or DHEX returns while DONE = 0: "any 32-bit word; may differ between two
reads" (93_implementation_defined.md U1). The argument counts the free values drawn so far (log 7). -/
opaque Config.freeRead : Nat → Word

/-- The FREE VALUE of byte `j` of the Padded Message for an index the spec's four ranges do not cover (`j` at or
beyond 64·NBLK, 40_padder_splitter.md R123), in terms of LEN, NBLK and `j`. No run from reset reaches one (log 8). -/
opaque Config.unstatedPad : (len nblk j : Nat) → Byte

end Sys2Proof
end

