-- ==== Sys2Proof/Syntax.lean ====
section
/-! DEFINITION. Syntax: one constructor of `Instr` per row of spec/opcode_table.json, the phases of the sequencer,
and the words that encode an operation (30_encoding.md, formats SEQ, CTRL, REGX, MSGX). -/

namespace Sys2Proof

/-- The nine phases of the sequencer (10_state.md R27, 30_encoding.md R100). -/
inductive Phase where
  | idle | pad | init | ldblk | expand | ldwork | round | feedfwd | finish
deriving DecidableEq, Repr

/-- The 26 operations of either agent (30_encoding.md R101, spec/opcode_table.json). -/
inductive Instr where
  -- engine micro-operations, format SEQ
  | pad
  | init
  | ldblk
  | expand (i : Fin 64)
  | ldwork
  | round (i : Fin 64)
  | feedfwd
  | finish
  -- host writes to CTRL, format CTRL
  | start
  | nop
  | rsvdctrl (data : Word)
  -- host register transactions, format REGX
  | rdctrl
  | rdstatus
  | wrstatus (data : Word)
  | rdmlenlo
  | wrmlenlo (data : Word)
  | rdmlenhi
  | wrmlenhi (data : Word)
  | rdrsvd (r : Fin 4)
  | wrrsvd (r : Fin 4) (data : Word)
  | rddigest (j : Fin 8)
  | wrdigest (j : Fin 8) (data : Word)
  | rddhex (q : Fin 16)
  | wrdhex (q : Fin 16) (data : Word)
  -- host message-memory transactions, format MSGX
  | msgwr (addr : BitVec 61) (byte : Byte)
  | msgrd (addr : BitVec 61)
deriving DecidableEq, Repr

/-- What the host sends, undecoded. A register transaction is the selector {w, rn} with its data word (R98), a
message-memory transaction the word {w, addr} with its byte (R99). On a read the data or byte is what the engine
returns, so what stands there in the request is not read (log 14). -/
inductive HostWord where
  | regx (sel : BitVec 6) (data : Word)
  | msgx (sel : BitVec 62) (byte : Byte)
deriving DecidableEq, Repr

/-- A word that encodes an operation: the sequencer word (R100) or a transaction of the host. -/
inductive Code where
  | seq (w : BitVec 10)
  | host (h : HostWord)
deriving DecidableEq, Repr

/-- The engine's own micro-operations, as opposed to the host's transactions (R101, column "agent"). -/
def Instr.isEngine : Instr → Bool
  | .pad | .init | .ldblk | .expand _ | .ldwork | .round _ | .feedfwd | .finish => true
  | .start | .nop | .rsvdctrl _ | .rdctrl | .rdstatus | .wrstatus _ | .rdmlenlo | .wrmlenlo _ | .rdmlenhi
  | .wrmlenhi _ | .rdrsvd _ | .wrrsvd _ _ | .rddigest _ | .wrdigest _ _ | .rddhex _ | .wrdhex _ _ | .msgwr _ _
  | .msgrd _ => false

end Sys2Proof
end

