-- ==== Sys2Proof/WellFormed.lean ====
section
/-! DEFINITION. The constraints spec/opcode_table.json and 30_encoding.md put on operands beyond their widths:
EXPAND's index is 16 to 63 (R100, R106), and a CTRL word is reserved only when it is neither NOP nor START
(R96, R105). Every other operand may hold every value of its width. -/

namespace Sys2Proof

/-- The instruction is one the encodings can express. -/
def Instr.wf : Instr → Bool
  | .expand i => decide (16 ≤ i.val)
  | .rsvdctrl data => data != 0 && data != 1
  | .pad | .init | .ldblk | .ldwork | .round _ | .feedfwd | .finish | .start | .nop | .rdctrl | .rdstatus
  | .wrstatus _ | .rdmlenlo | .wrmlenlo _ | .rdmlenhi | .wrmlenhi _ | .rdrsvd _ | .wrrsvd _ _ | .rddigest _
  | .wrdigest _ _ | .rddhex _ | .wrdhex _ _ | .msgwr _ _ | .msgrd _ => true

end Sys2Proof
end

