-- ==== Sys2Proof/Decode.lean ====
section
/-! DEFINITION. The decoder, total on every word and rejecting by name, and after it the encoder, both written
from the tables of 30_encoding.md (R96, R98, R99, R100, R101). -/

namespace Sys2Proof

/-- Why a word does not decode. Only a sequencer word can fail: all 64 register selectors and both kinds of
message transaction are covered (R101). -/
inductive DecodeError where
  /-- A value of `seq` outside the table of R100 (phases 9 to 15, an index other than 0 where none is taken, EXPAND
  below 16) or the IDLE word, which selects no micro-operation. -/
  | noMicroOperation (w : BitVec 10)
deriving DecidableEq, Repr

/-- Bits 9:6 of a sequencer word. -/
def seqPhase (w : BitVec 10) : BitVec 4 := w.extractLsb' 6 4

/-- Bits 5:0 of a sequencer word, zero-extended to an index (R104). -/
def seqIdx (w : BitVec 10) : Fin 64 := ⟨(w.extractLsb' 0 6).toNat, (w.extractLsb' 0 6).isLt⟩

/-- The micro-operation of a phase whose index field must be 0. -/
def plainPhase (w : BitVec 10) (i : Instr) : Except DecodeError Instr :=
  if seqIdx w = 0 then .ok i else .error (.noMicroOperation w)

/-- Format SEQ (R100). -/
def decodeSeq (w : BitVec 10) : Except DecodeError Instr :=
  match (seqPhase w).toNat with
  | 1 => plainPhase w .pad
  | 2 => plainPhase w .init
  | 3 => plainPhase w .ldblk
  | 4 => if 16 ≤ (seqIdx w).val then .ok (.expand (seqIdx w)) else .error (.noMicroOperation w)
  | 5 => plainPhase w .ldwork
  | 6 => .ok (.round (seqIdx w))
  | 7 => plainPhase w .feedfwd
  | 8 => plainPhase w .finish
  | _ => .error (.noMicroOperation w)

/-- Format CTRL: decoding is by the whole word (R96). -/
def decodeCtrl (data : Word) : Instr :=
  if data = 1 then .start else if data = 0 then .nop else .rsvdctrl data

/-- The low bits of a register number as an index: `rr`, `jjj` or `qqqq` of R101. -/
def rnLow (n : Nat) (rn : BitVec 5) (h : 0 < n) : Fin n := ⟨rn.toNat % n, Nat.mod_lt _ h⟩

/-- Format REGX with w = 0 (R98, R101). -/
def decodeRegRead (rn : BitVec 5) : Instr :=
  if rn = 0 then .rdctrl
  else if rn = 1 then .rdstatus
  else if rn = 2 then .rdmlenlo
  else if rn = 3 then .rdmlenhi
  else if rn < 8 then .rdrsvd (rnLow 4 rn (by decide))
  else if rn < 16 then .rddigest (rnLow 8 rn (by decide))
  else .rddhex (rnLow 16 rn (by decide))

/-- Format REGX with w = 1 (R98, R101). -/
def decodeRegWrite (rn : BitVec 5) (data : Word) : Instr :=
  if rn = 0 then decodeCtrl data
  else if rn = 1 then .wrstatus data
  else if rn = 2 then .wrmlenlo data
  else if rn = 3 then .wrmlenhi data
  else if rn < 8 then .wrrsvd (rnLow 4 rn (by decide)) data
  else if rn < 16 then .wrdigest (rnLow 8 rn (by decide)) data
  else .wrdhex (rnLow 16 rn (by decide)) data

/-- The host's transactions, formats REGX (bit 5 of the selector is w) and MSGX (bit 61 is w). -/
def decodeHost : HostWord → Instr
  | .regx sel data =>
    if sel.getLsbD 5 then decodeRegWrite (sel.extractLsb' 0 5) data else decodeRegRead (sel.extractLsb' 0 5)
  | .msgx sel byte =>
    if sel.getLsbD 61 then .msgwr (sel.extractLsb' 0 61) byte else .msgrd (sel.extractLsb' 0 61)

/-- The decoder: total, rejecting by name. -/
def decode : Code → Except DecodeError Instr
  | .seq w => decodeSeq w
  | .host h => .ok (decodeHost h)

/-- The word a row of spec/opcode_table.json stands for, its bits numbered as the table numbers them. The width of
a row (rounded up to whole bytes, or exact) tells its format: 6 a REGX selector alone (its data bits, if it is a
write, are 0), 10 SEQ, 38 CTRL or a REGX write {w, rn, data}, 62 a MSGX read {w, addr}, 70 a MSGX write
{w, addr, byte} (log 14). -/
def codeOfTableWord (nbits w : Nat) : Option Code :=
  if nbits = 16 ∨ nbits = 10 then
    if w < 2 ^ 10 then some (.seq (BitVec.ofNat 10 w)) else none
  else if nbits = 8 ∨ nbits = 6 then
    if w < 2 ^ 6 then some (.host (.regx (BitVec.ofNat 6 w) 0)) else none
  else if nbits = 40 ∨ nbits = 38 then
    if w < 2 ^ 38 ∧ 2 ^ 37 ≤ w then
      some (.host (.regx (BitVec.ofNat 6 (w / 2 ^ 32)) (BitVec.ofNat 32 w)))
    else none
  else if nbits = 64 ∨ nbits = 62 then
    if w < 2 ^ 61 then some (.host (.msgx (BitVec.ofNat 62 w) 0)) else none
  else if nbits = 72 ∨ nbits = 70 then
    if w < 2 ^ 70 ∧ 2 ^ 69 ≤ w then
      some (.host (.msgx (BitVec.ofNat 62 (w / 2 ^ 8)) (BitVec.ofNat 8 w)))
    else none
  else none

/-- The instruction the decoder reads from a word numbered as spec/opcode_table.json numbers it. -/
def decodeTableWord (nbits w : Nat) : Option Instr :=
  match codeOfTableWord nbits w with
  | none => none
  | some c => match decode c with
    | .ok i => some i
    | .error _ => none

/-- The phase codes (10_state.md R27). -/
def Phase.code : Phase → BitVec 4
  | .idle => 0
  | .pad => 1
  | .init => 2
  | .ldblk => 3
  | .expand => 4
  | .ldwork => 5
  | .round => 6
  | .feedfwd => 7
  | .finish => 8

/-- The sequencer word {phase, idx} (R100). -/
def seqWord (p : Phase) (i : Fin 64) : BitVec 10 := p.code ++ BitVec.ofNat 6 i.val

/-- The selector {w, rn} of a register transaction (R98). -/
def regSel (w : Bool) (rn : BitVec 5) : BitVec 6 := BitVec.ofBool w ++ rn

/-- A read of register `rn`. -/
def regRead (rn : BitVec 5) : Code := .host (.regx (regSel false rn) 0)

/-- A write of register `rn`. -/
def regWrite (rn : BitVec 5) (data : Word) : Code := .host (.regx (regSel true rn) data)

/-- The encoder: the words of a well-formed instruction, from the column "selected by" of R101. -/
def encode : Instr → Code
  | .pad => .seq (seqWord .pad 0)
  | .init => .seq (seqWord .init 0)
  | .ldblk => .seq (seqWord .ldblk 0)
  | .expand i => .seq (seqWord .expand i)
  | .ldwork => .seq (seqWord .ldwork 0)
  | .round i => .seq (seqWord .round i)
  | .feedfwd => .seq (seqWord .feedfwd 0)
  | .finish => .seq (seqWord .finish 0)
  | .start => regWrite 0 1
  | .nop => regWrite 0 0
  | .rsvdctrl data => regWrite 0 data
  | .rdctrl => regRead 0
  | .rdstatus => regRead 1
  | .wrstatus data => regWrite 1 data
  | .rdmlenlo => regRead 2
  | .wrmlenlo data => regWrite 2 data
  | .rdmlenhi => regRead 3
  | .wrmlenhi data => regWrite 3 data
  | .rdrsvd r => regRead (BitVec.ofNat 5 (4 + r.val))
  | .wrrsvd r data => regWrite (BitVec.ofNat 5 (4 + r.val)) data
  | .rddigest j => regRead (BitVec.ofNat 5 (8 + j.val))
  | .wrdigest j data => regWrite (BitVec.ofNat 5 (8 + j.val)) data
  | .rddhex q => regRead (BitVec.ofNat 5 (16 + q.val))
  | .wrdhex q data => regWrite (BitVec.ofNat 5 (16 + q.val)) data
  | .msgwr addr byte => .host (.msgx (BitVec.ofBool true ++ addr) byte)
  | .msgrd addr => .host (.msgx (BitVec.ofBool false ++ addr) 0)

end Sys2Proof
end

