-- ==== Sys2Proof/Machine/State.lean ====
section
/-! DEFINITION. The machine's state (10_state.md R20), the reasons a step can stop, and the state right after
reset. Fields in capitals and `blk`, `seq` carry the spec's names; the last four fields are the model's own. The
constant tables K and IV are ROM (R30, R31) and stand in Machine/Rom.lean (log 17). -/

namespace Sys2Proof.Machine

/-- Message memory: address and byte, addresses strictly rising; an address not listed holds no value (10_state.md
R40, R44; log 6). -/
abbrev Memory := List Host.Cell

/-- The Working Registers `a..h` = `V[0..7]` (10_state.md R22). -/
structure Work where
  a : Word
  b : Word
  c : Word
  d : Word
  e : Word
  f : Word
  g : Word
  h : Word
deriving DecidableEq, Repr

/-- One step of the world still to come: a transaction of the host, a turn of the engine, or the platform's RESET
(00_scope.md R12, 70_reset_and_hazards.md R250; log 1). -/
inductive Input where
  | host (h : HostWord)
  | engine
  | reset
deriving DecidableEq, Repr

/-- What a read transaction returned: a register's word (R98) or a message byte (R99). -/
inductive Response where
  | word (v : Word)
  | byte (b : Byte)
deriving DecidableEq, Repr

/-- The state of the engine (10_state.md R20) and, after it, the model's own fields. -/
structure State where
  /-- Hash State, the digest accumulator (R21). -/
  H : Vector Word 8
  /-- Working Registers `a..h` (R22). -/
  V : Work
  /-- Message Schedule (R23). -/
  W : Vector Word 64
  /-- Byte length of the Message of the computation in progress (R24). -/
  LEN : BitVec 64
  /-- Number of blocks of the Padded Message (R25). -/
  NBLK : BitVec 56
  /-- Index of the block being processed (R26). -/
  blk : BitVec 56
  /-- The sequencer {phase, idx} (R27). -/
  seq : BitVec 10
  /-- A computation is in progress (R28). -/
  BUSY : Bool
  /-- `H` holds the digest of the last computation (R28). -/
  DONE : Bool
  /-- The last computation failed (R28). -/
  ERR : Bool
  /-- Code of the failure: 0 none, 1 InputOverflow (R28). -/
  CAUSE : BitVec 4
  /-- The host's length register {MLEN_HI, MLEN_LO} (R29). -/
  MLEN : BitVec 64
  /-- Message memory (R40). -/
  MSG : Memory
  /-- The parameter MSG_BYTES (00_scope.md R7); no step writes it (log 3). -/
  MSG_BYTES : Nat
  /-- The inputs still to come, in their total order (20_memory.md R73; log 1). -/
  inputs : List Input
  /-- What the host's reads have returned, newest first (44_host_interface.md R190; log 2). -/
  outputs : List Response
  /-- How many free values have been drawn (93_implementation_defined.md U1; log 7). -/
  freeCtr : Nat
deriving DecidableEq, Repr

/-- Faults: the machine has no successor. -/
inductive Fault where
  /-- Raised by the step, and by EXPAND with an index below 16: `seq` holds a value outside the table of
  30_encoding.md R100. "No step is defined" (93_implementation_defined.md U7, treatment `stuck`). Safe; not reached
  from reset (log 12). -/
  | stuckSequencer
  /-- Raised by MSGRD: the byte was never written since RESET and holds no value (44_host_interface.md R202;
  93_implementation_defined.md U4, treatment `fault`). Safe (log 6). -/
  | unwrittenByte
deriving DecidableEq, Repr

/-- Refusals: the model gives the step no meaning. -/
inductive Refusal where
  /-- Raised by exec for an instruction that has no meaning yet. Safe. -/
  | notModelled (mnemonic : String)
  /-- Raised by MSGWR, MSGRD and LDBLK: the address is at or beyond MSG_BYTES. "A model must refuse such a step"
  (20_memory.md R71; 93_implementation_defined.md U3). Safe (log 10). -/
  | beyondMsgBytes
  /-- Raised by MSGWR below LEN while BUSY = 1: the host breaks the duty of 70_reset_and_hazards.md R255. "A model
  refuses such a run" (93_implementation_defined.md U2). Safe (log 9). -/
  | messageWrittenWhileBusy
  /-- Raised by LDBLK: a Message byte was never written since RESET (70_reset_and_hazards.md R259;
  93_implementation_defined.md U4, treatment `refuse`). Safe (log 11). -/
  | unwrittenMessageByte
deriving DecidableEq, Repr

/-- The result of one operation. -/
abbrev Result := Host.Outcome State Fault Refusal

/-- The state right after reset (10_state.md R44, 70_reset_and_hazards.md R251): `seq` (IDLE, 0), flags and MLEN 0,
no byte of MSG holding a value. R44 leaves H, a..h, W, LEN, NBLK and blk unspecified: 0 here, DESIGN CHOICE, unsafe
(log 4). The model's own fields: MSG_BYTES = 2^61 (log 3), no inputs, no outputs, no free value drawn. -/
def State.reset : State where
  H := Vector.replicate 8 0
  V := ⟨0, 0, 0, 0, 0, 0, 0, 0⟩
  W := Vector.replicate 64 0
  LEN := 0
  NBLK := 0
  blk := 0
  seq := 0
  BUSY := false
  DONE := false
  ERR := false
  CAUSE := 0
  MLEN := 0
  MSG := []
  MSG_BYTES := 2 ^ 61
  inputs := []
  outputs := []
  freeCtr := 0

end Sys2Proof.Machine
end

