-- ==== Sys2Proof/Machine/Memory.lean ====
section
/-! DEFINITION. The message memory (20_memory.md R60 to R62): one byte at a time, read and written in one place. -/

namespace Sys2Proof.Machine

/-- What an address that is not listed reads as: no value (10_state.md R44, 92_eei_decisions.md D29; log 6). -/
def Memory.unlisted : Option Byte := none

/-- `MemRead(a, 1)`: the byte at `a`, or no value (00_scope.md R11). -/
def Memory.read : Memory → Nat → Option Byte
  | [], _ => Memory.unlisted
  | (x, b) :: rest, a => if a = x then some b else Memory.read rest a

/-- `MemWrite(a, 1, v)`: the byte at `a` becomes `v`, in canonical form. -/
def Memory.write : Memory → Nat → Byte → Memory
  | [], a, v => [(a, v)]
  | (x, b) :: rest, a, v =>
    if a < x then (a, v) :: (x, b) :: rest
    else if a = x then (a, v) :: rest
    else (x, b) :: Memory.write rest a v

/-- The canonical form: addresses strictly rising. An unlisted address reads as no value and every entry holds a
byte, so no entry equals what an unlisted address reads as. -/
abbrev Memory.wf (m : Memory) : Prop := m.Pairwise (fun x y => x.1 < y.1)

end Sys2Proof.Machine
end

