-- ==== Sys2Proof/Machine/Operands.lean ====
section
/-! DEFINITION. Operand forms: word operators and functions (00_scope.md R9, 41_schedule.md R140, R141,
42_compress.md R155 to R158), byte-order helpers (R10), length assembly (30_encoding.md R103), the Padded Message
(40_padder_splitter.md R123) and the hexadecimal rendering (43_formatter.md R181 to R183). -/

namespace Sys2Proof.Machine

/-! Word functions. -/

/-- `ROTR(x, n)`, right rotation in 32 bits, 0 < n < 32 (R9, R171). -/
def rotr (x : Word) (n : Nat) : Word := x.rotateRight n

/-- `SHR(x, n)`, logical right shift, 0 < n < 32 (R9, R172). -/
def shr (x : Word) (n : Nat) : Word := x >>> n

/-- σ0 (R140). -/
def ssig0 (x : Word) : Word := rotr x 7 ^^^ rotr x 18 ^^^ shr x 3

/-- σ1 (R141). -/
def ssig1 (x : Word) : Word := rotr x 17 ^^^ rotr x 19 ^^^ shr x 10

/-- Σ0 (R155). -/
def bsig0 (x : Word) : Word := rotr x 2 ^^^ rotr x 13 ^^^ rotr x 22

/-- Σ1 (R156). -/
def bsig1 (x : Word) : Word := rotr x 6 ^^^ rotr x 11 ^^^ rotr x 25

/-- Ch (R157). -/
def ch (x y z : Word) : Word := (x &&& y) ^^^ (~~~x &&& z)

/-- Maj (R158). -/
def maj (x y z : Word) : Word := (x &&& y) ^^^ (x &&& z) ^^^ (y &&& z)

/-- The schedule recurrence of EXPAND on the words at distances 2, 7, 15 and 16 (R143). -/
def expandWord (w2 w7 w15 w16 : Word) : Word := ssig1 w2 + w7 + ssig0 w15 + w16

/-- `RND`: the eight assignments of one round with round constant `k` and schedule word `w`, all from the values at
the start of the step (R161, R164). -/
def roundStep (k w : Word) (v : Work) : Work :=
  let t1 := v.h + bsig1 v.e + ch v.e v.f v.g + k + w
  let t2 := bsig0 v.a + maj v.a v.b v.c
  { a := t1 + t2, b := v.a, c := v.b, d := v.c, e := v.d + t1, f := v.e, g := v.f, h := v.g }

/-- The working registers loaded from a Hash State (R160). -/
def workOf (h : Vector Word 8) : Work := ⟨h[0], h[1], h[2], h[3], h[4], h[5], h[6], h[7]⟩

/-- The feed-forward: register order a..h maps to indices 0..7 (R163). -/
def feedForward (h : Vector Word 8) (v : Work) : Vector Word 8 :=
  #v[h[0] + v.a, h[1] + v.b, h[2] + v.c, h[3] + v.d, h[4] + v.e, h[5] + v.f, h[6] + v.g, h[7] + v.h]

/-! Byte order. -/

/-- `BE32(b0, b1, b2, b3)`: `b0` is the most significant byte (R10). -/
def be32 (b0 b1 b2 b3 : Byte) : Word := b0 ++ b1 ++ b2 ++ b3

/-- `BE32BYTE(w, k)` = w[31−8k : 24−8k], k = 0..3 (R10). -/
def be32Byte (w : Word) (k : Nat) : Byte := w.extractLsb' (24 - 8 * k) 8

/-- `BE64BYTE(v, k)` = v[63−8k : 56−8k], k = 0..7 (R10). -/
def be64Byte (v : BitVec 64) (k : Nat) : Byte := v.extractLsb' (56 - 8 * k) 8

/-! Lengths. -/

/-- MLEN with its low half replaced (R197). -/
def withMlenLo (mlen : BitVec 64) (data : Word) : BitVec 64 := mlen.extractLsb' 32 32 ++ data

/-- MLEN with its high half replaced (R197). -/
def withMlenHi (mlen : BitVec 64) (data : Word) : BitVec 64 := data ++ mlen.extractLsb' 0 32

/-- MLEN[31:0] (R36). -/
def mlenLo (mlen : BitVec 64) : Word := mlen.extractLsb' 0 32

/-- MLEN[63:32] (R36). -/
def mlenHi (mlen : BitVec 64) : Word := mlen.extractLsb' 32 32

/-- The overflow test on the full 64-bit LEN, before any multiplication: LEN[63:61] ≠ 0 (R121). -/
def lengthOverflows (len : BitVec 64) : Bool := len.extractLsb' 61 3 != 0

/-- The block count (LEN + 72) div 64, computed without wrap-around (R103, R122). -/
def blockCount (len : BitVec 64) : BitVec 56 := BitVec.ofNat 56 ((len.toNat + 72) / 64)

/-- The bit length 8·LEN: B[63:3] = LEN[60:0], B[2:0] = 0 (R103). -/
def bitLength (len : BitVec 64) : BitVec 64 := len.extractLsb' 0 61 ++ (0 : BitVec 3)

/-! The Padded Message. -/

/-- One byte of MSG as the engine reads it: refused beyond MSG_BYTES (20_memory.md R71, U3) and where no value is
held (70_reset_and_hazards.md R259, U4); where both apply, beyondMsgBytes (DESIGN CHOICE, log 24). -/
def engineRead (s : State) (a : Nat) : Except Refusal Byte :=
  if a < s.MSG_BYTES then
    match s.MSG.read a with
    | some b => .ok b
    | none => .error .unwrittenMessageByte
  else .error .beyondMsgBytes

/-- `PM(j)` with L = LEN and N = NBLK: Message byte, marker, zero fill, length suffix (R123). Only the first case
reads memory. The four ranges cover 0 .. 64N − 1 in every reachable state; elsewhere the byte is a free value, and
where LEN and NBLK do not agree the first range that holds `j` counts (log 8). -/
def paddedByte (s : State) (j : Nat) : Except Refusal Byte :=
  let len := s.LEN.toNat
  let total := 64 * s.NBLK.toNat
  if j < len then engineRead s j
  else if j = len then .ok 0x80
  else if j + 8 < total then .ok 0x00
  else if j < total then .ok (be64Byte (bitLength s.LEN) (j + 8 - total))
  else .ok (Config.unstatedPad len s.NBLK.toNat j)

/-- The reason byte `j` of the Padded Message cannot be had, if there is one. -/
def paddedStop (s : State) (j : Nat) : Option Refusal :=
  match paddedByte s j with
  | .ok _ => none
  | .error r => some r

/-- Byte `j` of the Padded Message where it can be had (the 0 stands for a byte no caller uses: LDBLK refuses
first). -/
def paddedValue (s : State) (j : Nat) : Byte :=
  match paddedByte s j with
  | .ok b => b
  | .error _ => 0

/-- The index of byte `q` of block `blk` in the Padded Message: 64·blk + q, exact (R127, R174). -/
def blockIndex (s : State) (q : Nat) : Nat := 64 * s.blk.toNat + q

/-- The first byte of BLOCK(blk), in ascending order, that cannot be had (20_memory.md R68, R80). -/
def blockStop (s : State) : Option Refusal :=
  (List.range 64).findSome? (fun q => paddedStop s (blockIndex s q))

/-- Word `k` of BLOCK(blk): four consecutive bytes, big-endian (R63, R92, R102). -/
def blockWord (s : State) (k : Nat) : Word :=
  be32 (paddedValue s (blockIndex s (4 * k))) (paddedValue s (blockIndex s (4 * k + 1)))
    (paddedValue s (blockIndex s (4 * k + 2))) (paddedValue s (blockIndex s (4 * k + 3)))

/-- The schedule with BLOCK(blk) in its first 16 words (R142). -/
def loadedSchedule (s : State) : Vector Word 64 :=
  Vector.ofFn fun k => if k.val < 16 then blockWord s k.val else s.W[k]

/-! The digest as bytes and as characters. -/

/-- `DIGESTBYTES(H)`: byte 4j + k is BE32BYTE(H[j], k) (R181). -/
def digestByte (h : Vector Word 8) (m : Fin 32) : Byte := be32Byte (h[m.val / 4]'(by omega)) (m.val % 4)

/-- `HEXCHAR(v)`: 0x30 + v for v ≤ 9, 0x57 + v for v ≥ 10 (R182; the codes are ASCII, 93_implementation_defined.md
G2; log 21). -/
def hexChar (v : Nat) : Byte := if v ≤ 9 then BitVec.ofNat 8 (0x30 + v) else BitVec.ofNat 8 (0x57 + v)

/-- Character c(n) of `HEX(H)`: the high four bits of digest byte n div 2 when n is even, else its low four (R182). -/
def hexAt (h : Vector Word 8) (n : Fin 64) : Byte :=
  let d := (digestByte h ⟨n.val / 2, by omega⟩).toNat
  if n.val % 2 = 0 then hexChar (d / 16) else hexChar (d % 16)

/-- DHEXq = BE32(c(4q), c(4q+1), c(4q+2), c(4q+3)) (R183). -/
def dhexWord (h : Vector Word 8) (q : Fin 16) : Word :=
  be32 (hexAt h ⟨4 * q.val, by omega⟩) (hexAt h ⟨4 * q.val + 1, by omega⟩)
    (hexAt h ⟨4 * q.val + 2, by omega⟩) (hexAt h ⟨4 * q.val + 3, by omega⟩)

end Sys2Proof.Machine
end

