-- ==== Sys2Proof/Machine/Flags.lean ====
section
/-! DEFINITION. The status flags (10_state.md R28, R35). No micro-operation computes an arithmetic flag; the flags
change only when a START is accepted, when InputOverflow is raised and when a computation finishes. -/

namespace Sys2Proof.Machine

/-- The word a read of STATUS returns: {0[31:8], CAUSE[3:0], 0, ERR, DONE, BUSY} (R35, R195). -/
def State.status (s : State) : Word :=
  (0 : BitVec 24) ++ s.CAUSE ++ (0 : BitVec 1) ++ BitVec.ofBool s.ERR ++ BitVec.ofBool s.DONE
    ++ BitVec.ofBool s.BUSY

/-- The flags of an accepted START: BUSY set; DONE, ERR and CAUSE cleared (R191). This is also all the return from
a failure there is: "ERR and CAUSE stay set until the next accepted START, which clears them" (R227). -/
def State.flagsStarted (s : State) : State := { s with BUSY := true, DONE := false, ERR := false, CAUSE := 0 }

/-- The flags of trap entry: ERR and CAUSE = 1 set, BUSY and DONE cleared (R224). -/
def State.flagsFailed (s : State) : State := { s with BUSY := false, DONE := false, ERR := true, CAUSE := 1 }

/-- The flags of FINISH: BUSY cleared, DONE set; ERR and CAUSE untouched (R180). -/
def State.flagsFinished (s : State) : State := { s with BUSY := false, DONE := true }

end Sys2Proof.Machine
end

