-- ==== Sys2Proof/Machine/Ops.lean ====
section
/-! DEFINITION. The named updates of the state that the meanings share: the sequencer, each register, the one
exception, the answer of a read, RESET. -/

namespace Sys2Proof.Machine

/-- `seq <- (P, i)` (00_scope.md R11). -/
def State.goto (s : State) (p : Phase) (i : Fin 64) : State := { s with seq := seqWord p i }

/-- Write the Hash State. -/
def State.setH (s : State) (h : Vector Word 8) : State := { s with H := h }

/-- Write the Working Registers. -/
def State.setV (s : State) (v : Work) : State := { s with V := v }

/-- Write the Message Schedule. -/
def State.setW (s : State) (w : Vector Word 64) : State := { s with W := w }

/-- Write the block count and the block index (PAD, R120). -/
def State.setBlocks (s : State) (n b : BitVec 56) : State := { s with NBLK := n, blk := b }

/-- Write the block index (FEEDFWD, R163). -/
def State.setBlk (s : State) (b : BitVec 56) : State := { s with blk := b }

/-- Write the latched length (START, R191). -/
def State.setLEN (s : State) (n : BitVec 64) : State := { s with LEN := n }

/-- Write the host's length register (R197). -/
def State.setMLEN (s : State) (n : BitVec 64) : State := { s with MLEN := n }

/-- Write one byte of the message memory (R201). -/
def State.storeByte (s : State) (a : Nat) (b : Byte) : State := { s with MSG := s.MSG.write a b }

/-- Return a value to the host; no read has any other effect (20_memory.md R69; log 2). -/
def State.respond (s : State) (r : Response) : State := { s with outputs := r :: s.outputs }

/-- Return an unspecified register value: the next free value (93_implementation_defined.md U1; log 7). -/
def State.respondFree (s : State) : State :=
  { s with outputs := .word (Config.freeRead s.freeCtr) :: s.outputs, freeCtr := s.freeCtr + 1 }

/-- `raise InputOverflow`, TAKING THE ONE EXCEPTION (60_exceptions.md R224): the flags and `seq`, nothing else. No
state is saved, no vector is consulted, no mode changes. -/
def State.raiseInputOverflow (s : State) : State := s.flagsFailed.goto .idle 0

/-- An accepted START (44_host_interface.md R191): LEN latched, the flags of a running computation, `seq` at PAD. There
is no return instruction; this clears a failure (R227). -/
def State.acceptStart (s : State) : State := ((s.setLEN s.MLEN).flagsStarted).goto .pad 0

/-- The engine in phase IDLE, where it has no step (R203). -/
def State.isIdle (s : State) : Bool := s.seq == seqWord .idle 0

/-- The platform's RESET (70_reset_and_hazards.md R251): every register of the engine as after reset, the message
memory holding no value. MSG_BYTES, the inputs still to come, the values already returned and the count of free
values are not the engine's and stay (log 5). -/
def State.resetEvent (s : State) : State :=
  { State.reset with
    MSG_BYTES := s.MSG_BYTES
    inputs := s.inputs
    outputs := s.outputs
    freeCtr := s.freeCtr }

/-- The inputs still to come once the next one is taken. -/
def State.dropInput (s : State) : State := { s with inputs := s.inputs.tail }

end Sys2Proof.Machine
end

