-- ==== Sys2Proof/Machine/Compress.lean ====
section
/-! DEFINITION. INIT, LDWORK, ROUND and FEEDFWD (42_compress.md). -/

namespace Sys2Proof.Machine

/-- INIT (R159): H <- IV. -/
def execInit (s : State) : Result := .next ((s.setH initIV).goto .ldblk 0)

/-- LDWORK (R160): a..h <- H[0..7]. -/
def execLdwork (s : State) : Result := .next ((s.setV (workOf s.H)).goto .round 0)

/-- ROUND i (R161): one round with K[i] and W[i], then the next or FEEDFWD. -/
def execRound (i : Fin 64) (s : State) : Result :=
  let t := s.setV (roundStep roundK[i] s.W[i] s.V)
  if hi : i.val < 63 then .next (t.goto .round ⟨i.val + 1, by omega⟩) else .next (t.goto .feedfwd 0)

/-- FEEDFWD (R163): H[j] <- H[j] +32 V[j]; then the next block, or FINISH after the last. blk + 1 is compared exactly
(R174). -/
def execFeedfwd (s : State) : Result :=
  let t := s.setH (feedForward s.H s.V)
  if s.blk.toNat + 1 < s.NBLK.toNat then .next ((t.setBlk (s.blk + 1)).goto .ldblk 0)
  else .next (t.goto .finish 0)

end Sys2Proof.Machine
end

