-- ==== Sys2Proof/Machine/Formatter.lean ====
section
/-! DEFINITION. FINISH (43_formatter.md); the views DIGEST and DHEX are in Machine/HostRegs.lean. -/

namespace Sys2Proof.Machine

/-- FINISH (R180): BUSY <- 0, DONE <- 1, the engine idle. -/
def execFinish (s : State) : Result := .next (s.flagsFinished.goto .idle 0)

end Sys2Proof.Machine
end

