-- ==== Sys2Proof/Machine/HostMem.lean ====
section
/-! DEFINITION. The message-memory transactions of the host (44_host_interface.md R201, R202). -/

namespace Sys2Proof.Machine

/-- MSGWR (R201): MSG[addr] <- byte, in every state. Refused at or beyond MSG_BYTES (20_memory.md R71, U3; log 10) and
below LEN while BUSY = 1 (70_reset_and_hazards.md R255, U2: "A model refuses such a run"; log 9). Where both apply the
spec ranks neither, and beyondMsgBytes names the stop: DESIGN CHOICE (log 24). -/
def execMsgwr (addr : BitVec 61) (byte : Byte) (s : State) : Result :=
  if s.MSG_BYTES ≤ addr.toNat then .refused .beyondMsgBytes
  else if s.BUSY ∧ addr.toNat < s.LEN.toNat then .refused .messageWrittenWhileBusy
  else .next (s.storeByte addr.toNat byte)

/-- MSGRD (R202): returns MSG[addr]. Refused at or beyond MSG_BYTES (R71, U3; log 10); a byte never written since RESET
has no value and the read faults (U4; log 6). Where both apply the refusal comes first: DESIGN CHOICE (log 24). -/
def execMsgrd (addr : BitVec 61) (s : State) : Result :=
  if s.MSG_BYTES ≤ addr.toNat then .refused .beyondMsgBytes
  else match s.MSG.read addr.toNat with
    | some b => .next (s.respond (.byte b))
    | none => .fault .unwrittenByte

end Sys2Proof.Machine
end

