-- ==== Sys2Proof/Machine/HostRegs.lean ====
section
/-! DEFINITION. The commands and register transactions of the host (44_host_interface.md R191 to R200). None blocks,
none faults (R190, 10_state.md R39). -/

namespace Sys2Proof.Machine

/-- START (R191): accepted when BUSY = 0; ignored, without a record, when BUSY = 1 (R193). -/
def execStart (s : State) : Result := if s.BUSY then .next s else .next s.acceptStart

/-- NOP (R192): nothing changes. -/
def execNop (s : State) : Result := .next s

/-- A reserved CTRL write (30_encoding.md R105): ignored, whatever the data (log 22). -/
def execRsvdctrl (_data : Word) (s : State) : Result := .next s

/-- RDCTRL (R194): returns 0. -/
def execRdctrl (s : State) : Result := .next (s.respond (.word 0))

/-- RDSTATUS (R195): returns the flags and clears none. -/
def execRdstatus (s : State) : Result := .next (s.respond (.word s.status))

/-- WRSTATUS (R196): ignored. -/
def execWrstatus (_data : Word) (s : State) : Result := .next s

/-- RDMLENLO (R197). -/
def execRdmlenlo (s : State) : Result := .next (s.respond (.word (mlenLo s.MLEN)))

/-- WRMLENLO (R197), in every state. -/
def execWrmlenlo (data : Word) (s : State) : Result := .next (s.setMLEN (withMlenLo s.MLEN data))

/-- RDMLENHI (R197). -/
def execRdmlenhi (s : State) : Result := .next (s.respond (.word (mlenHi s.MLEN)))

/-- WRMLENHI (R197), in every state. -/
def execWrmlenhi (data : Word) (s : State) : Result := .next (s.setMLEN (withMlenHi s.MLEN data))

/-- RDRSVD (R200): registers 4 to 7 read 0. -/
def execRdrsvd (_r : Fin 4) (s : State) : Result := .next (s.respond (.word 0))

/-- WRRSVD (R200): ignored. -/
def execWrrsvd (_r : Fin 4) (_data : Word) (s : State) : Result := .next s

/-- RDDIGEST j (R198): H[j] when DONE = 1, else an unspecified word, a free value (U1; log 7). -/
def execRddigest (j : Fin 8) (s : State) : Result :=
  if s.DONE then .next (s.respond (.word s.H[j])) else .next s.respondFree

/-- WRDIGEST j (R198): ignored. -/
def execWrdigest (_j : Fin 8) (_data : Word) (s : State) : Result := .next s

/-- RDDHEX q (R199): DHEXq when DONE = 1, else an unspecified word, a free value (U1; log 7). -/
def execRddhex (q : Fin 16) (s : State) : Result :=
  if s.DONE then .next (s.respond (.word (dhexWord s.H q))) else .next s.respondFree

/-- WRDHEX q (R199): ignored. -/
def execWrdhex (_q : Fin 16) (_data : Word) (s : State) : Result := .next s

end Sys2Proof.Machine
end

