-- ==== Sys2Proof/Machine/Padder.lean ====
section
/-! DEFINITION. PAD (40_padder_splitter.md). -/

namespace Sys2Proof.Machine

/-- PAD (R120): InputOverflow exactly when LEN ≥ 2^61, else the block count, block 0 and INIT next. -/
def execPad (s : State) : Result :=
  if lengthOverflows s.LEN then .next s.raiseInputOverflow
  else .next ((s.setBlocks (blockCount s.LEN) 0).goto .init 0)

end Sys2Proof.Machine
end

