-- ==== Sys2Proof/Machine/Schedule.lean ====
section
/-! DEFINITION. LDBLK and EXPAND (41_schedule.md). -/

namespace Sys2Proof.Machine

/-- LDBLK (R142): W[0..15] from BLOCK(blk), then EXPAND 16. Where a Message byte lies beyond MSG_BYTES or was never
written "the step has no defined result" and is refused (U3, U4; logs 10, 11). -/
def execLdblk (s : State) : Result :=
  match blockStop s with
  | some r => .refused r
  | none => .next ((s.setW (loadedSchedule s)).goto .expand 16)

/-- EXPAND i (R143), 16 ≤ i ≤ 63: one derived schedule word, then the next or LDWORK. An index below 16 is no
micro-operation (R106): stuck. -/
def execExpand (i : Fin 64) (s : State) : Result :=
  if h : 16 ≤ i.val then
    let w := expandWord (s.W[i.val - 2]'(by omega)) (s.W[i.val - 7]'(by omega)) (s.W[i.val - 15]'(by omega))
      (s.W[i.val - 16]'(by omega))
    let t := s.setW (s.W.set i.val w)
    if hi : i.val < 63 then .next (t.goto .expand ⟨i.val + 1, by omega⟩) else .next (t.goto .ldwork 0)
  else .fault .stuckSequencer

end Sys2Proof.Machine
end

