-- ==== Sys2Proof/Machine/Dispatch.lean ====
section
/-! DEFINITION. One arm per operation of spec/opcode_table.json. -/

namespace Sys2Proof.Machine

-- The meaning of one operation of either agent.
def exec (i : Instr) (s : State) : Host.Outcome State Fault Refusal :=
  match i with
  | .pad => Sys2Proof.Machine.execPad s
  | .init => Sys2Proof.Machine.execInit s
  | .ldblk => Sys2Proof.Machine.execLdblk s
  | .expand k => Sys2Proof.Machine.execExpand k s
  | .ldwork => Sys2Proof.Machine.execLdwork s
  | .round k => Sys2Proof.Machine.execRound k s
  | .feedfwd => Sys2Proof.Machine.execFeedfwd s
  | .finish => Sys2Proof.Machine.execFinish s
  | .start => Sys2Proof.Machine.execStart s
  | .nop => Sys2Proof.Machine.execNop s
  | .rsvdctrl data => Sys2Proof.Machine.execRsvdctrl data s
  | .rdctrl => Sys2Proof.Machine.execRdctrl s
  | .rdstatus => Sys2Proof.Machine.execRdstatus s
  | .wrstatus data => Sys2Proof.Machine.execWrstatus data s
  | .rdmlenlo => Sys2Proof.Machine.execRdmlenlo s
  | .wrmlenlo data => Sys2Proof.Machine.execWrmlenlo data s
  | .rdmlenhi => Sys2Proof.Machine.execRdmlenhi s
  | .wrmlenhi data => Sys2Proof.Machine.execWrmlenhi data s
  | .rdrsvd r => Sys2Proof.Machine.execRdrsvd r s
  | .wrrsvd r data => Sys2Proof.Machine.execWrrsvd r data s
  | .rddigest j => Sys2Proof.Machine.execRddigest j s
  | .wrdigest j data => Sys2Proof.Machine.execWrdigest j data s
  | .rddhex q => Sys2Proof.Machine.execRddhex q s
  | .wrdhex q data => Sys2Proof.Machine.execWrdhex q data s
  | .msgwr addr byte => Sys2Proof.Machine.execMsgwr addr byte s
  | .msgrd addr => Sys2Proof.Machine.execMsgrd addr s

end Sys2Proof.Machine
end

