-- ==== Sys2Proof/Machine/Fetch.lean ====
section
/-! DEFINITION. What the next step of the machine is (00_scope.md R12, 20_memory.md R73). Nothing is fetched from a
memory: the next input tells whose turn it is, the host's transaction carries its own word, and the engine's word is
`seq` (logs 1, 15). -/

namespace Sys2Proof.Machine

/-- What happens at the next step. -/
inductive Turn where
  /-- The platform's RESET. -/
  | reset
  /-- The engine's turn in phase IDLE: it has no step. -/
  | idle
  /-- An operation, undecoded. -/
  | code (c : Code)
deriving DecidableEq, Repr

/-- The engine's turn: the word in `seq`, or nothing in phase IDLE (30_encoding.md R100, 44_host_interface.md R203). -/
def engineTurn (s : State) : Turn := if s.isIdle then .idle else .code (.seq s.seq)

/-- Whose turn it is and with what. Where no input is left the turn is the engine's, so a computation in progress runs
to its end (R205; log 1). -/
def nextTurn (s : State) : Turn :=
  match s.inputs with
  | [] => engineTurn s
  | .engine :: _ => engineTurn s
  | .host h :: _ => .code (.host h)
  | .reset :: _ => .reset

/-- What a word that selects no micro-operation does: no step is defined (30_encoding.md R106, U7; log 12). -/
def decodeStop : DecodeError → Result
  | .noMicroOperation _ => .fault .stuckSequencer

/-- The state in which the next step runs the operation `c`: a host transaction becomes the next input; a sequencer
word goes into `seq` and the next turn to the engine (log 15). -/
def State.withCode (s : State) (c : Code) : State :=
  match c with
  | .seq w => { s with seq := w, inputs := .engine :: s.inputs }
  | .host h => { s with inputs := .host h :: s.inputs }

end Sys2Proof.Machine
end

