-- ==== Sys2Proof/Machine/Step.lean ====
section
/-! DEFINITION. One step of the machine: one atomic step of the host, the engine or the platform (00_scope.md R12). -/

namespace Sys2Proof.Machine

/-- One step: take the next input, decode the word it brings (or `seq`) and run the operation; RESET and the idle
engine have no word. -/
def step (s : State) : Host.Outcome State Fault Refusal :=
  match nextTurn s with
  | .reset => .next s.dropInput.resetEvent
  | .idle => .next s.dropInput
  | .code c =>
    match decode c with
    | .ok i => exec i s.dropInput
    | .error e => decodeStop e

/-- `s` with the operation of a table word as the very next one (log 15); unchanged for a word of no format. -/
def State.withFetchWord (s : State) (nbits w : Nat) : State :=
  match codeOfTableWord nbits w with
  | some c => s.withCode c
  | none => s

end Sys2Proof.Machine
end

