-- ==== Sys2Proof/Machine/HostProgram.lean ====
section
/-! DEFINITION. The notation for host programs (30_encoding.md R109) and the pseudo-instructions (R110), as lists of
inputs. -/

namespace Sys2Proof.Machine

/-- `regwr R, V`. -/
def regwr (rn : BitVec 5) (v : Word) : Input := .host (.regx (regSel true rn) v)

/-- `regrd R`. -/
def regrd (rn : BitVec 5) : Input := .host (.regx (regSel false rn) 0)

/-- `msgwr A, V`. -/
def msgwr (a : BitVec 61) (v : Byte) : Input := .host (.msgx (BitVec.ofBool true ++ a) v)

/-- `msgrd A`. -/
def msgrd (a : BitVec 61) : Input := .host (.msgx (BitVec.ofBool false ++ a) 0)

/-- `start`: the same as `regwr CTRL, 0x00000001`. -/
def startCommand : Input := regwr 0 1

/-- `setlen L`: the low half, then the high half. -/
def setlen (len : BitVec 64) : List Input := [regwr 2 (mlenLo len), regwr 3 (mlenHi len)]

/-- `load M` from address `a` on, ascending; `load M` is `loadFrom 0 M`. DESIGN CHOICE: an address past 61 bits wraps
modulo 2^61; the spec gives no `load` of so long a Message (log 23). -/
def loadFrom (a : Nat) : List Byte → List Input
  | [] => []
  | b :: rest => msgwr (BitVec.ofNat 61 a) b :: loadFrom (a + 1) rest

/-- `wait`, as the host's side of an interleaving in which the engine takes `n` steps and the host reads STATUS after
each. -/
def waitPolling : Nat → List Input
  | 0 => []
  | n + 1 => .engine :: regrd 1 :: waitPolling n

/-- `rddigest`. -/
def rddigest : List Input := (List.range 8).map fun j => regrd (BitVec.ofNat 5 (8 + j))

/-- `rdhex`. -/
def rdhex : List Input := (List.range 16).map fun q => regrd (BitVec.ofNat 5 (16 + q))

/-- `digest M` up to the end of `wait`, the engine taking `n` steps (R110, 44_host_interface.md R207). DESIGN CHOICE: a
length of 2^64 or more, which does not fit MLEN, is taken modulo 2^64 (log 23). -/
def digestCommand (m : List Byte) (n : Nat) : List Input :=
  loadFrom 0 m ++ setlen (BitVec.ofNat 64 m.length) ++ [startCommand] ++ waitPolling n

end Sys2Proof.Machine
end

