-- ==== Sys2Proof/Machine/Reference.lean ====
section
/-! DEFINITION. The spec's composite functions, on a Message as a list of bytes and with no machine state: the Padded
Message as the source's padder builds it (40_padder_splitter.md R122 to R124), SCHED (41_schedule.md R144), RND and
COMPRESS (42_compress.md R164), SHA256 (R165). The machine never calls them: claims compare the machine with them.
They are total; what they give outside the ranges the spec defines (a Message of 2^61 bytes or more, a block at or
beyond the block count, an index past 63) is the model's: DESIGN CHOICE (log 25). -/

namespace Sys2Proof.Machine

/-- Z, the number of zero bytes: (55 − L) mod 64 (R122). -/
def zeroCount (len : Nat) : Nat := (119 - len % 64) % 64

/-- N = (L + 72) div 64, the number of blocks (R122). -/
def messageBlocks (len : Nat) : Nat := (len + 72) / 64

/-- Format LENSFX: the bit length as 8 big-endian bytes (30_encoding.md R93). From 2^61 bytes on, where the spec defines
none, the bit length modulo 2^64: DESIGN CHOICE (log 25). -/
def lengthSuffix (len : Nat) : List Byte := (List.range 8).map (be64Byte (BitVec.ofNat 64 (8 * len)))

/-- "Append one 0x80 byte; append the minimal count (0–63) of 0x00 bytes ...; append the original bit-length of M as
an 8-byte big-endian unsigned integer" (R123). The spec defines it below 2^61 bytes only (R122; log 25). -/
def paddedMessage (m : List Byte) : List Byte :=
  m ++ (0x80 :: (List.replicate (zeroCount m.length) 0 ++ lengthSuffix m.length))

/-- Byte `q` of BLOCK(n) of a Message (R127). At or beyond the block count, where R127 defines no block, 0: DESIGN
CHOICE (log 25). -/
def blockByte (m : List Byte) (n q : Nat) : Byte := (paddedMessage m).getD (64 * n + q) 0

/-- SCHED(B), newest word first: after `n` steps of the recurrence it holds words 15 + n down to 0 (R144). -/
def schedRev (b : Nat → Byte) : Nat → List Word
  | 0 => (List.range 16).reverse.map fun k => be32 (b (4 * k)) (b (4 * k + 1)) (b (4 * k + 2)) (b (4 * k + 3))
  | n + 1 =>
    let l := schedRev b n
    expandWord (l.getD 1 0) (l.getD 6 0) (l.getD 14 0) (l.getD 15 0) :: l

/-- SCHED(B)[i], i = 0..63 (R144); beyond 63 the last word (log 25). -/
def sched (b : Nat → Byte) (i : Nat) : Word := (schedRev b 48).getD (63 - i) 0

/-- V(i), i = 0..64: the working registers after `i` rounds (R164); beyond 64 the round constant is 0 (log 25). -/
def rounds (w : Nat → Word) (v : Work) : Nat → Work
  | 0 => v
  | i + 1 => roundStep (roundK.toList.getD i 0) (w i) (rounds w v i)

/-- COMPRESS(S, B) (R164). -/
def compressBlock (h : Vector Word 8) (b : Nat → Byte) : Vector Word 8 :=
  feedForward h (rounds (sched b) (workOf h) 64)

/-- S(n): the Hash State after `n` blocks of a Message, n at most the block count (R165; beyond it log 25). -/
def hashAfter (m : List Byte) : Nat → Vector Word 8
  | 0 => initIV
  | n + 1 => compressBlock (hashAfter m n) (blockByte m n)

/-- SHA256(M), which R165 defines for a Message below 2^61 bytes (beyond it log 25). -/
def sha256 (m : List Byte) : Vector Word 8 := hashAfter m (messageBlocks m.length)

/-- HEX(H), the 64 characters c(0) .. c(63) (43_formatter.md R182). -/
def hexString (h : Vector Word 8) : List Byte := List.ofFn (hexAt h)

end Sys2Proof.Machine
end

