-- ==== Sys2Proof/Safety.lean ====
section
/-! DEFINITION. What counts as a sound state, in the terms claims use: the invariants the spec derives for every
reachable state (10_state.md R28, 30_encoding.md R106, 41_schedule.md R142), and what a computation in progress has
computed so far (41_schedule.md R144, 42_compress.md R164, R165). -/

namespace Sys2Proof.Machine

/-- The values `seq` can take: IDLE, or a word that selects a micro-operation (30_encoding.md R100, R106). -/
def LegalSeq (w : BitVec 10) : Prop := w = seqWord .idle 0 ∨ ∃ i, decode (.seq w) = .ok i

/-- The phases after PAD has accepted the length: the block count is that of LEN and the block index is below it
(10_state.md R25, R26; 40_padder_splitter.md R121, R122). -/
def State.BlocksOk (s : State) : Prop :=
  s.LEN.toNat < 2 ^ 61 ∧ s.NBLK.toNat = messageBlocks s.LEN.toNat ∧ s.blk.toNat < s.NBLK.toNat

/-- The invariants of the control state and of the memory. -/
structure State.Inv (s : State) : Prop where
  /-- The memory keeps its canonical form. -/
  memory : s.MSG.wf
  /-- No byte lies beyond the implemented memory (20_memory.md R61). -/
  inside : ∀ c ∈ s.MSG, c.1 < s.MSG_BYTES
  /-- 0 ≤ MSG_BYTES ≤ 2^61 (00_scope.md R7). -/
  size : s.MSG_BYTES ≤ 2 ^ 61
  /-- `seq` holds a value of the table (30_encoding.md R106). -/
  sequencer : LegalSeq s.seq
  /-- BUSY = 1 exactly when the phase is not IDLE (10_state.md R28). -/
  busy : s.BUSY = true ↔ s.seq ≠ seqWord .idle 0
  /-- At most one of BUSY, DONE, ERR is 1 (R28). -/
  oneFlag : ¬(s.BUSY = true ∧ s.DONE = true) ∧ ¬(s.BUSY = true ∧ s.ERR = true) ∧ ¬(s.DONE = true ∧ s.ERR = true)
  /-- CAUSE = 1 exactly when ERR = 1, otherwise 0 (R28). -/
  cause : s.CAUSE = if s.ERR then 1 else 0
  /-- From INIT to FINISH the block registers agree with LEN. -/
  blocks : s.seq ≠ seqWord .idle 0 → s.seq ≠ seqWord .pad 0 → s.BlocksOk
  /-- INIT comes before block 0 (40_padder_splitter.md R120). -/
  first : s.seq = seqWord .init 0 → s.blk = 0
  /-- FINISH comes after the last block (44_host_interface.md R203). -/
  last : s.seq = seqWord .finish 0 → s.blk.toNat + 1 = s.NBLK.toNat

/-- The Message of the computation: MSG[0 .. LEN−1] (20_memory.md R62). A byte that holds no value counts as 0 here;
LDBLK refuses to read one, so no result depends on it. -/
def State.message (s : State) : List Byte := (List.range s.LEN.toNat).map fun a => (s.MSG.read a).getD 0

/-- The schedule words below `n` are those of the current block (41_schedule.md R144). -/
def State.ScheduleUpTo (s : State) (n : Nat) : Prop :=
  ∀ k : Fin 64, k.val < n → s.W[k] = sched (blockByte s.message s.blk.toNat) k.val

/-- The Hash State is that after the blocks before the current one (42_compress.md R165). -/
def State.HashOk (s : State) : Prop := s.H = hashAfter s.message s.blk.toNat

/-- The working registers are those after `n` rounds of the current block (42_compress.md R164). -/
def State.RoundsOk (s : State) (n : Nat) : Prop :=
  s.V = rounds (sched (blockByte s.message s.blk.toNat)) (workOf s.H) n

/-- What a computation in progress has computed when the engine stands at a phase. -/
structure State.DigestInv (s : State) : Prop where
  ldblk : s.seq = seqWord .ldblk 0 → s.HashOk
  expand : ∀ i, s.seq = seqWord .expand i → s.HashOk ∧ s.ScheduleUpTo i.val
  ldwork : s.seq = seqWord .ldwork 0 → s.HashOk ∧ s.ScheduleUpTo 64
  round : ∀ i, s.seq = seqWord .round i → s.HashOk ∧ s.ScheduleUpTo 64 ∧ s.RoundsOk i.val
  feedfwd : s.seq = seqWord .feedfwd 0 → s.HashOk ∧ s.RoundsOk 64
  finish : s.seq = seqWord .finish 0 → s.H = sha256 s.message

/-- The host has kept its duty of R259: every byte of the Message of length `len` is inside the memory and written. -/
def State.MessageReady (s : State) (len : Nat) : Prop :=
  ∀ a < len, a < s.MSG_BYTES ∧ ∃ b, s.MSG.read a = some b

/-- Every byte of BLOCK(blk) can be had: what LDBLK needs (41_schedule.md R142). -/
def State.BlockReady (s : State) : Prop :=
  ∀ q < 64, blockIndex s q < s.LEN.toNat →
    blockIndex s q < s.MSG_BYTES ∧ ∃ b, s.MSG.read (blockIndex s q) = some b

/-- `n` steps of the machine, stopping at the first fault or refusal. -/
def steps : Nat → State → Result
  | 0, s => .next s
  | n + 1, s =>
    match step s with
    | .next t => steps n t
    | .fault r => .fault r
    | .refused r => .refused r

end Sys2Proof.Machine
end

