-- ==== Sys2Proof/Certificates/Slice0/Obligations.lean ====
section
/-! DEFINITION. The statements for the provers. A frame is written `t = { s with X := t.X, … }`: every field but the
ones named keeps its value; the claims about memory read it through `Memory.read`, one byte at a time. -/

open Sys2Proof Sys2Proof.Machine

/-! ## Encodings (30_encoding.md) -/

/-- Words written out from 30_encoding.md R100, R101 and 95_test_vectors.md V-HOST, V-SEQ decode to what they stand
for. The widths and field layouts in which a table word is handed over ({w, rn, data}, {w, addr, byte}, whole bytes)
are log 14's, DEDUCED from spec/opcode_table.json. -/
def Obligations.SampleWordsDecode : Prop :=
  decodeTableWord 16 0b0001000000 = some .pad ∧
  decodeTableWord 16 0b0100010000 = some (.expand 16) ∧
  decodeTableWord 16 0b0110111111 = some (.round 63) ∧
  decodeTableWord 16 0b1001000000 = none ∧
  decodeTableWord 40 0b10000000000000000000000000000000000001 = some .start ∧
  decodeTableWord 40 0b10000000000000000000000000000000000011 = some (.rsvdctrl 3) ∧
  decodeTableWord 8 0b000001 = some .rdstatus ∧
  decodeTableWord 8 0b001111 = some (.rddigest 7) ∧
  decodeTableWord 8 0b011111 = some (.rddhex 15) ∧
  decodeTableWord 72 0x2000000000000005e3 = some (.msgwr 5 0xe3) ∧
  decodeTableWord 64 5 = some (.msgrd 5)

/-- DECODE AND ENCODE AGREE: for every well-formed operation of either agent, with every operand at every value its
encoding admits, decoding the encoding gives it back (R96, R98 to R101). -/
def Obligations.DecodeEncodeRoundTrip : Prop :=
  ∀ i : Instr, i.wf = true → decode (encode i) = .ok i

/-- EACH WORD HAS ONE MEANING: a sequencer word that decodes is the encoding of what it decodes to, an operation of
the engine; every register selector and every message word is the encoding of one operation of the host ("the 64
values of the REGX selector are all covered", R101). The data of a read request is not part of the request (log 14). -/
def Obligations.EachWordHasOneMeaning : Prop :=
  (∀ (w : BitVec 10) (i : Instr), decode (.seq w) = .ok i →
    i.wf = true ∧ i.isEngine = true ∧ encode i = .seq w) ∧
  (∀ (sel : BitVec 6) (data : Word), ∃ i, decode (.host (.regx sel data)) = .ok i ∧ i.wf = true ∧
    i.isEngine = false ∧ encode i = .host (.regx sel (if sel.getLsbD 5 then data else 0))) ∧
  (∀ (sel : BitVec 62) (byte : Byte), ∃ i, decode (.host (.msgx sel byte)) = .ok i ∧ i.wf = true ∧
    i.isEngine = false ∧ encode i = .host (.msgx sel (if sel.getLsbD 61 then byte else 0)))

/-- The table of 30_encoding.md R100 in terms of the word's value, phase p = bits 9:6 and index k = bits 5:0: which
words select which micro-operation, and that every other value selects none (R106). -/
def Obligations.SequencerWordTable : Prop :=
  ∀ w : BitVec 10, ∀ p k : Nat, k < 64 → w.toNat = 64 * p + k →
    (decode (.seq w) = .ok .pad ↔ p = 1 ∧ k = 0) ∧
    (decode (.seq w) = .ok .init ↔ p = 2 ∧ k = 0) ∧
    (decode (.seq w) = .ok .ldblk ↔ p = 3 ∧ k = 0) ∧
    (∀ i : Fin 64, decode (.seq w) = .ok (.expand i) ↔ p = 4 ∧ 16 ≤ k ∧ i.val = k) ∧
    (decode (.seq w) = .ok .ldwork ↔ p = 5 ∧ k = 0) ∧
    (∀ i : Fin 64, decode (.seq w) = .ok (.round i) ↔ p = 6 ∧ i.val = k) ∧
    (decode (.seq w) = .ok .feedfwd ↔ p = 7 ∧ k = 0) ∧
    (decode (.seq w) = .ok .finish ↔ p = 8 ∧ k = 0) ∧
    ((∃ e, decode (.seq w) = .error e) ↔
      p = 0 ∨ 9 ≤ p ∨ (p = 4 ∧ k < 16) ∨ (p ≠ 4 ∧ p ≠ 6 ∧ k ≠ 0))

/-! ## Operators and functions (00_scope.md, 41_schedule.md, 42_compress.md) -/

/-- ROTR and SHR by bits and by arithmetic, for every amount 0 < n < 32 (R9, R171, R172). -/
def Obligations.RotationAndShift : Prop :=
  ∀ (x : Word) (n : Nat), 0 < n → n < 32 →
    (∀ i < 32, (rotr x n).getLsbD i = x.getLsbD ((i + n) % 32)) ∧
    (rotr x n).toNat = x.toNat / 2 ^ n + (x.toNat % 2 ^ n) * 2 ^ (32 - n) ∧
    (∀ i < 32, (shr x n).getLsbD i = (decide (i + n ≤ 31) && x.getLsbD (i + n))) ∧
    (shr x n).toNat = x.toNat / 2 ^ n

/-- σ0, σ1, Σ0, Σ1 bit by bit (R140, R141, R155, R156), Ch and Maj bit by bit: "where x has a 1 the result takes y's
bit, where x has a 0 it takes z's bit" (R157), "the value that at least two of the three have" (R158). -/
def Obligations.WordFunctionsByBits : Prop :=
  ∀ (x y z : Word) (i : Nat), i < 32 →
    (ssig0 x).getLsbD i =
      ((x.getLsbD ((i + 7) % 32)).xor (x.getLsbD ((i + 18) % 32))).xor (x.getLsbD (i + 3)) ∧
    (ssig1 x).getLsbD i =
      ((x.getLsbD ((i + 17) % 32)).xor (x.getLsbD ((i + 19) % 32))).xor (x.getLsbD (i + 10)) ∧
    (bsig0 x).getLsbD i =
      ((x.getLsbD ((i + 2) % 32)).xor (x.getLsbD ((i + 13) % 32))).xor (x.getLsbD ((i + 22) % 32)) ∧
    (bsig1 x).getLsbD i =
      ((x.getLsbD ((i + 6) % 32)).xor (x.getLsbD ((i + 11) % 32))).xor (x.getLsbD ((i + 25) % 32)) ∧
    (ch x y z).getLsbD i = (if x.getLsbD i then y.getLsbD i else z.getLsbD i) ∧
    (maj x y z).getLsbD i = decide
      (2 ≤ (x.getLsbD i).toNat + (y.getLsbD i).toNat + (z.getLsbD i).toNat)

/-- The byte-order helpers by arithmetic (R10): BE32 puts its first byte highest, BE32BYTE and BE64BYTE take bytes
from the top. -/
def Obligations.ByteOrderHelpers : Prop :=
  (∀ b0 b1 b2 b3 : Byte,
    (be32 b0 b1 b2 b3).toNat = b0.toNat * 2 ^ 24 + b1.toNat * 2 ^ 16 + b2.toNat * 2 ^ 8 + b3.toNat) ∧
  (∀ (w : Word) (k : Nat), k ≤ 3 → (be32Byte w k).toNat = w.toNat / 2 ^ (24 - 8 * k) % 2 ^ 8) ∧
  (∀ (v : BitVec 64) (k : Nat), k ≤ 7 → (be64Byte v k).toNat = v.toNat / 2 ^ (56 - 8 * k) % 2 ^ 8) ∧
  (∀ w : Word, be32 (be32Byte w 0) (be32Byte w 1) (be32Byte w 2) (be32Byte w 3) = w)

/-- The constant tables are what 10_state.md R32 defines: IV[j] = isqrt(p(j)·2^64) mod 2^32 and
K[i] = icbrt(p(i)·2^96) mod 2^32, p(i) the i-th prime, isqrt and icbrt the largest integer roots. -/
def Obligations.ConstantsAreRootFractions : Prop :=
  (∀ j : Fin 8, ∃ r : Nat, r ^ 2 ≤ Nat.nth Nat.Prime j.val * 2 ^ 64 ∧
    Nat.nth Nat.Prime j.val * 2 ^ 64 < (r + 1) ^ 2 ∧ initIV[j].toNat = r % 2 ^ 32) ∧
  (∀ i : Fin 64, ∃ r : Nat, r ^ 3 ≤ Nat.nth Nat.Prime i.val * 2 ^ 96 ∧
    Nat.nth Nat.Prime i.val * 2 ^ 96 < (r + 1) ^ 3 ∧ roundK[i].toNat = r % 2 ^ 32)

/-! ## The padder and the splitter (40_padder_splitter.md) -/

/-- The Padded Message of the source's construction: Z is the least count of zero bytes that reaches 56 modulo 64, it
is at most 63, the whole is 64·N bytes with N = (L + 72) div 64, and Z = 64·N − 9 − L (R122, R124). It is said of every byte list; from 2^61 bytes on, where the
spec defines no Padded Message, it is about the reference as log 25 extends it (DESIGN CHOICE). -/
def Obligations.PaddedMessageShape : Prop :=
  ∀ m : List Byte,
    (m.length + 1 + zeroCount m.length) % 64 = 56 ∧
    (∀ z, (m.length + 1 + z) % 64 = 56 → zeroCount m.length ≤ z) ∧
    zeroCount m.length ≤ 63 ∧
    (paddedMessage m).length = 64 * messageBlocks m.length ∧
    zeroCount m.length + 9 + m.length = 64 * messageBlocks m.length ∧
    1 ≤ messageBlocks m.length

/-- The machine generates, byte for byte, the source's Padded Message (R123): for a length PAD accepts, the block
count PAD computes, and a Message wholly written inside the memory. -/
def Obligations.MachinePadsLikeTheSource : Prop :=
  ∀ s : State, s.LEN.toNat < 2 ^ 61 → s.NBLK.toNat = messageBlocks s.LEN.toNat →
    s.MessageReady s.LEN.toNat →
    ∀ j < 64 * s.NBLK.toNat, paddedByte s j = .ok ((paddedMessage s.message).getD j 0)

/-- PAD on a length below 2^61: NBLK is (LEN + 72) div 64, blk is 0, INIT comes next, nothing else changes (R120,
R122). -/
def Obligations.PadAcceptsTheLength : Prop :=
  ∀ s : State, s.LEN.toNat < 2 ^ 61 → ∃ t, exec .pad s = .next t ∧
    t.NBLK.toNat = (s.LEN.toNat + 72) / 64 ∧ t.blk = 0 ∧ t.seq = 0x080#10 ∧
    t = { s with NBLK := t.NBLK, blk := t.blk, seq := t.seq }

/-- PAD on a length of 2^61 or more TAKES InputOverflow: ERR and CAUSE are 1, BUSY and DONE 0, the engine idle,
nothing else changes, STATUS reads 0x14 (R224; the condition is R121's). -/
def Obligations.PadTakesInputOverflow : Prop :=
  ∀ s : State, 2 ^ 61 ≤ s.LEN.toNat → ∃ t, exec .pad s = .next t ∧
    t = { s with ERR := true, CAUSE := 1, BUSY := false, DONE := false, seq := 0x000#10 } ∧
    t.status = 0x00000014

/-- No other operation of either agent raises anything (R220, R221, R223): wherever ERR becomes 1, the operation is PAD
and LEN is at least 2^61. Among "every operation" are the two that no encoding gives, EXPAND below 16 (log 12) and a
reserved write of 0 or 1 (log 22, DESIGN CHOICE). -/
def Obligations.OnlyPadRaises : Prop :=
  ∀ (i : Instr) (s t : State), exec i s = .next t → s.ERR = false → t.ERR = true →
    i = .pad ∧ 2 ^ 61 ≤ s.LEN.toNat ∧ t.CAUSE = 1

/-! ## The schedule expander (41_schedule.md) -/

/-- LDBLK: where the block registers agree with LEN and the Message bytes of the block can be had, W[0..15] are the
big-endian words of BLOCK(blk) of the Padded Message, EXPAND 16 comes next, nothing else changes (R142, R63). -/
def Obligations.LdblkLoadsTheBlock : Prop :=
  ∀ s : State, s.BlocksOk → s.BlockReady → ∃ t, exec .ldblk s = .next t ∧
    (∀ k : Fin 64, k.val < 16 → t.W[k].toNat =
      (blockByte s.message s.blk.toNat (4 * k.val)).toNat * 2 ^ 24 +
      (blockByte s.message s.blk.toNat (4 * k.val + 1)).toNat * 2 ^ 16 +
      (blockByte s.message s.blk.toNat (4 * k.val + 2)).toNat * 2 ^ 8 +
      (blockByte s.message s.blk.toNat (4 * k.val + 3)).toNat) ∧
    (∀ k : Fin 64, 16 ≤ k.val → t.W[k] = s.W[k]) ∧ t.seq = 0x110#10 ∧
    t = { s with W := t.W, seq := t.seq }

/-- LDBLK reads, of the memory, nothing but the addresses 64·blk + q below LEN (20_memory.md R68, R80): two states that
agree on those bytes and on LEN, NBLK, blk and MSG_BYTES load the same block, or are both refused. In states that no
run reaches, where LEN and NBLK disagree or blk is not below NBLK, the bytes are those of log 8 (DESIGN CHOICE). -/
def Obligations.LdblkReadsOnlyItsBlock : Prop :=
  ∀ s t : State, s.LEN = t.LEN → s.NBLK = t.NBLK → s.blk = t.blk → s.MSG_BYTES = t.MSG_BYTES →
    (∀ q < 64, 64 * s.blk.toNat + q < s.LEN.toNat →
      s.MSG.read (64 * s.blk.toNat + q) = t.MSG.read (64 * s.blk.toNat + q)) →
    (∀ s', exec .ldblk s = .next s' → ∃ t', exec .ldblk t = .next t' ∧
      ∀ k : Fin 64, k.val < 16 → s'.W[k] = t'.W[k]) ∧
    (∀ r, exec .ldblk s = .refused r → exec .ldblk t = .refused r)

/-- LDBLK is refused where a Message byte of its block cannot be had: beyond MSG_BYTES (log 10, DEDUCED from
20_memory.md R71 and U3) or never written (log 11, DEDUCED from 70_reset_and_hazards.md R259 and U4). That the first
such byte in ascending order names the refusal is the model's choice (log 11, DESIGN CHOICE), and so is which bytes are
Message bytes in states that no run reaches (log 8, DESIGN CHOICE). A byte both beyond MSG_BYTES and never written is
named beyondMsgBytes (log 24, DESIGN CHOICE). -/
def Obligations.LdblkRefusesMissingBytes : Prop :=
  ∀ (s : State) (q : Nat), q < 64 → blockIndex s q < s.LEN.toNat →
    (∀ r < q, blockIndex s r < s.MSG_BYTES ∧ ∃ b, s.MSG.read (blockIndex s r) = some b) →
    (s.MSG_BYTES ≤ blockIndex s q → exec .ldblk s = .refused .beyondMsgBytes) ∧
    (blockIndex s q < s.MSG_BYTES → s.MSG.read (blockIndex s q) = none →
      exec .ldblk s = .refused .unwrittenMessageByte)

/-- EXPAND i, for every 16 ≤ i ≤ 63: W[i] is the sum modulo 2^32 of σ1(W[i−2]), W[i−7], σ0(W[i−15]) and W[i−16]; the
next index or LDWORK comes next; nothing else changes (R143). -/
def Obligations.ExpandComputesItsWord : Prop :=
  ∀ (s : State) (i k2 k7 k15 k16 : Fin 64), k2.val + 2 = i.val → k7.val + 7 = i.val → k15.val + 15 = i.val →
    k16.val + 16 = i.val → ∃ t, exec (.expand i) s = .next t ∧
    t.W[i].toNat =
      ((ssig1 s.W[k2]).toNat + s.W[k7].toNat + (ssig0 s.W[k15]).toNat + s.W[k16].toNat) % 2 ^ 32 ∧
    (∀ k : Fin 64, k ≠ i → t.W[k] = s.W[k]) ∧
    t.seq.toNat = (if i.val < 63 then 0x100 + i.val + 1 else 0x140) ∧
    t = { s with W := t.W, seq := t.seq }

/-! ## The compressor (42_compress.md) -/

/-- INIT: H <- IV, LDBLK next, nothing else (R159); LDWORK: a..h <- H[0..7], ROUND 0 next, nothing else (R160). -/
def Obligations.HashStateLoads : Prop :=
  ∀ s : State,
    exec .init s = .next { s with
      H := #v[0x6a09e667, 0xbb67ae85, 0x3c6ef372, 0xa54ff53a, 0x510e527f, 0x9b05688c, 0x1f83d9ab, 0x5be0cd19]
      seq := 0x0c0#10 } ∧
    exec .ldwork s = .next { s with
      V := ⟨s.H[0], s.H[1], s.H[2], s.H[3], s.H[4], s.H[5], s.H[6], s.H[7]⟩
      seq := 0x180#10 }

/-- ROUND i, for every 0 ≤ i ≤ 63: the eight assignments from the values at the start of the step, sums modulo 2^32;
the next round or FEEDFWD comes next; nothing else changes (R161). -/
def Obligations.RoundComputesTheRegisters : Prop :=
  ∀ (s : State) (i : Fin 64), ∃ t, exec (.round i) s = .next t ∧
    (∀ t1 t2 : Nat,
      t1 = s.V.h.toNat + (bsig1 s.V.e).toNat + (ch s.V.e s.V.f s.V.g).toNat + roundK[i].toNat + s.W[i].toNat →
      t2 = (bsig0 s.V.a).toNat + (maj s.V.a s.V.b s.V.c).toNat →
      t.V.a.toNat = (t1 + t2) % 2 ^ 32 ∧ t.V.e.toNat = (s.V.d.toNat + t1) % 2 ^ 32) ∧
    t.V.b = s.V.a ∧ t.V.c = s.V.b ∧ t.V.d = s.V.c ∧ t.V.f = s.V.e ∧ t.V.g = s.V.f ∧ t.V.h = s.V.g ∧
    t.seq.toNat = (if i.val < 63 then 0x180 + i.val + 1 else 0x1c0) ∧
    t = { s with V := t.V, seq := t.seq }

/-- FEEDFWD: H[j] is the sum modulo 2^32 of H[j] and register j in the order a..h; then the next block, or FINISH with
blk kept; nothing else changes (R163). -/
def Obligations.FeedforwardAccumulates : Prop :=
  ∀ s : State, ∃ t, exec .feedfwd s = .next t ∧
    (∀ j : Fin 8, t.H[j].toNat =
      (s.H[j].toNat + (#v[s.V.a, s.V.b, s.V.c, s.V.d, s.V.e, s.V.f, s.V.g, s.V.h][j]).toNat) % 2 ^ 32) ∧
    (s.blk.toNat + 1 < s.NBLK.toNat → t.blk.toNat = s.blk.toNat + 1 ∧ t.seq = 0x0c0#10) ∧
    (s.NBLK.toNat ≤ s.blk.toNat + 1 → t.blk = s.blk ∧ t.seq = 0x200#10) ∧
    t = { s with H := t.H, blk := t.blk, seq := t.seq }

/-! ## The formatter (43_formatter.md) -/

/-- FINISH publishes the digest: BUSY 0, DONE 1, the engine idle, nothing else; where no failure stood, STATUS then
reads 0x2; DIGESTj then reads H[j], and DHEXq the hex rendering, characters 4q .. 4q+3 of HEX(H) (R180). The words
returned are read from the model's own `outputs` (log 2); which codes the characters have (log 21) is not said here. -/
def Obligations.FinishPublishesTheDigest : Prop :=
  ∀ s : State, ∃ t, exec .finish s = .next t ∧
    t = { s with BUSY := false, DONE := true, seq := 0x000#10 } ∧
    (s.ERR = false → s.CAUSE = 0 → t.status = 0x00000002) ∧
    (∀ j : Fin 8, exec (.rddigest j) t = .next { t with outputs := .word s.H[j] :: t.outputs }) ∧
    ∀ q : Fin 16, ∃ v : Word, exec (.rddhex q) t = .next { t with outputs := .word v :: t.outputs } ∧
      ∀ k < 4, be32Byte v k = (hexString s.H).getD (4 * q.val + k) 0

/-- HEX(H): characters 8j .. 8j+7 are the eight hex digits of H[j], most significant first, with the codes 0x30 + v and
0x57 + v (R182; the codes are the spec's G2, log 21). -/
def Obligations.HexDigitsOfTheWords : Prop :=
  ∀ (h : Vector Word 8) (j : Fin 8) (k d : Nat) (n : Fin 64), k < 8 → n.val = 8 * j.val + k →
    d = h[j].toNat / 16 ^ (7 - k) % 16 →
    (hexAt h n).toNat = if d ≤ 9 then 0x30 + d else 0x57 + d

/-- HEX(H) has exactly 64 characters, each of 0123456789abcdef, and different Hash States give different strings
(R184). -/
def Obligations.HexStringProperties : Prop :=
  (∀ h : Vector Word 8, (hexString h).length = 64 ∧
    ∀ c ∈ hexString h, (0x30 ≤ c.toNat ∧ c.toNat ≤ 0x39) ∨ (0x61 ≤ c.toNat ∧ c.toNat ≤ 0x66)) ∧
  (∀ g h : Vector Word 8, hexString g = hexString h → g = h)

/-! ## The host's transactions (44_host_interface.md) -/

/-- START begins a computation when BUSY = 0: LEN <- MLEN, BUSY 1, DONE, ERR and CAUSE 0, PAD next, nothing else
changes, STATUS reads 0x1; when BUSY = 1 nothing changes (R191). -/
def Obligations.StartBeginsAComputation : Prop :=
  ∀ s : State,
    (s.BUSY = false → ∃ t, exec .start s = .next t ∧
      t = { s with LEN := s.MLEN, BUSY := true, DONE := false, ERR := false, CAUSE := 0, seq := 0x040#10 } ∧
      t.status = 0x00000001) ∧
    (s.BUSY = true → exec .start s = .next s)

/-- START with BUSY = 1 is ignored: no state changes (R193). -/
def Obligations.StartWhileBusyIsIgnored : Prop :=
  ∀ s : State, s.BUSY = true → exec .start s = .next s

/-- NOP, reserved CTRL values, and writes to STATUS, reserved registers, DIGEST and DHEX change nothing in any state
(R192, R105, R196, and the write clauses of R198, R199, R200). Every data is covered; that the reserved-write operation
also ignores the data 0 and 1, which no encoding gives it, is the model's choice (log 22, DESIGN CHOICE). -/
def Obligations.IgnoredWritesChangeNothing : Prop :=
  ∀ (s : State) (data : Word) (r : Fin 4) (j : Fin 8) (q : Fin 16),
    exec .nop s = .next s ∧ exec (.rsvdctrl data) s = .next s ∧ exec (.wrstatus data) s = .next s ∧
    exec (.wrrsvd r data) s = .next s ∧ exec (.wrdigest j data) s = .next s ∧ exec (.wrdhex q data) s = .next s

/-- By register number: a REGWR, decoded, changes nothing unless it is START or addresses MLEN_LO or MLEN_HI, whatever
the data: NOP and reserved CTRL values (R192, R105), STATUS (R196), and every other read-only or reserved register. -/
def Obligations.OnlyStartAndLengthWritesAct : Prop :=
  ∀ (rn : BitVec 5) (data : Word) (s : State), ¬(rn = 0 ∧ data = 1) → rn ≠ 2 → rn ≠ 3 →
    ∃ i, decode (regWrite rn data) = .ok i ∧ exec i s = .next s

/-- RDCTRL returns 0x00000000 in every state and changes nothing (R194), and so do reads of the reserved registers;
writes to those are ignored (R200). The word returned is read from the model's own `outputs` (log 2). -/
def Obligations.CommandAndReservedRegistersReadZero : Prop :=
  ∀ (s : State) (r : Fin 4) (data : Word),
    exec .rdctrl s = .next { s with outputs := .word 0 :: s.outputs } ∧
    exec (.rdrsvd r) s = .next { s with outputs := .word 0 :: s.outputs } ∧
    exec (.wrrsvd r data) s = .next s

/-- RDSTATUS returns {0[31:8], CAUSE[3:0], 0, ERR, DONE, BUSY} and changes nothing (R195). The word returned is read
from the model's own `outputs` (log 2). -/
def Obligations.StatusReadReturnsTheFlags : Prop :=
  ∀ s : State, ∃ v : Word, exec .rdstatus s = .next { s with outputs := .word v :: s.outputs } ∧
    v.toNat = s.CAUSE.toNat * 16 + s.ERR.toNat * 4 + s.DONE.toNat * 2 + s.BUSY.toNat

/-- "The only values STATUS can take": idle, busy, done, failed (10_state.md R35), in every state that keeps the
flags' invariants (R28). -/
def Obligations.StatusTakesFourValues : Prop :=
  ∀ s : State, s.Inv →
    s.status = 0x00000000 ∨ s.status = 0x00000001 ∨ s.status = 0x00000002 ∨ s.status = 0x00000014

/-- The MLEN registers: each write replaces its half and leaves the other and all other state, in every state; each
read returns its half and changes nothing (R197). The words returned are read from the model's own `outputs` (log 2). -/
def Obligations.LengthRegisterHalves : Prop :=
  ∀ (s : State) (data : Word),
    (∃ t, exec (.wrmlenlo data) s = .next t ∧ t = { s with MLEN := t.MLEN } ∧
      t.MLEN.toNat = s.MLEN.toNat / 2 ^ 32 * 2 ^ 32 + data.toNat) ∧
    (∃ t, exec (.wrmlenhi data) s = .next t ∧ t = { s with MLEN := t.MLEN } ∧
      t.MLEN.toNat = data.toNat * 2 ^ 32 + s.MLEN.toNat % 2 ^ 32) ∧
    (∃ v : Word, exec .rdmlenlo s = .next { s with outputs := .word v :: s.outputs } ∧
      v.toNat = s.MLEN.toNat % 2 ^ 32) ∧
    (∃ v : Word, exec .rdmlenhi s = .next { s with outputs := .word v :: s.outputs } ∧
      v.toNat = s.MLEN.toNat / 2 ^ 32)

/-- RDDIGEST j returns H[j] when DONE = 1; when DONE = 0 it returns an unspecified word, the model's free value, and
the count of free values goes up (R198; logs 2, 7). WRDIGEST j is ignored. Nothing else changes. -/
def Obligations.DigestRegisters : Prop :=
  ∀ (s : State) (j : Fin 8) (data : Word),
    (s.DONE = true → exec (.rddigest j) s = .next { s with outputs := .word s.H[j] :: s.outputs }) ∧
    (s.DONE = false → ∃ v : Word,
      exec (.rddigest j) s = .next { s with outputs := .word v :: s.outputs, freeCtr := s.freeCtr + 1 }) ∧
    exec (.wrdigest j data) s = .next s

/-- RDDHEX q returns, when DONE = 1, characters 4q .. 4q+3 of HEX(H), the earlier one in the more significant byte
(R199, R183, R38); when DONE = 0 an unspecified word, the model's free value (logs 2, 7). The character codes are log 21's.
WRDHEX q is ignored. Nothing else changes. -/
def Obligations.HexRegisters : Prop :=
  ∀ (s : State) (q : Fin 16) (data : Word),
    (s.DONE = true → ∃ v : Word, exec (.rddhex q) s = .next { s with outputs := .word v :: s.outputs } ∧
      ∀ k < 4, (be32Byte v k) = (hexString s.H).getD (4 * q.val + k) 0) ∧
    (s.DONE = false → ∃ v : Word,
      exec (.rddhex q) s = .next { s with outputs := .word v :: s.outputs, freeCtr := s.freeCtr + 1 }) ∧
    exec (.wrdhex q data) s = .next s

/-- MSGWR inside the memory, no duty broken: the byte at the address is the byte written, every other address reads as
before, nothing else changes (R201; the frame of MSGWR). -/
def Obligations.MsgwrStoresOneByte : Prop :=
  ∀ (s : State) (addr : BitVec 61) (byte : Byte), addr.toNat < s.MSG_BYTES →
    ¬(s.BUSY = true ∧ addr.toNat < s.LEN.toNat) → ∃ t, exec (.msgwr addr byte) s = .next t ∧
    t.MSG.read addr.toNat = some byte ∧ (∀ a, a ≠ addr.toNat → t.MSG.read a = s.MSG.read a) ∧
    t = { s with MSG := t.MSG }

/-- MSGRD inside the memory returns the byte the address holds and changes nothing (R202); so it returns what the
latest MSGWR to that address wrote, any other MSGWR having come between. -/
def Obligations.MsgrdReturnsTheLastWrite : Prop :=
  (∀ (s : State) (addr : BitVec 61) (b : Byte), addr.toNat < s.MSG_BYTES → s.MSG.read addr.toNat = some b →
    exec (.msgrd addr) s = .next { s with outputs := .byte b :: s.outputs }) ∧
  (∀ (s t u : State) (addr other : BitVec 61) (b c : Byte), exec (.msgwr addr b) s = .next t →
    exec (.msgwr other c) t = .next u → other ≠ addr →
    exec (.msgrd addr) u = .next { u with outputs := .byte b :: u.outputs })

/-- Where the message transactions stop: at or beyond MSG_BYTES both are refused (20_memory.md R71, U3); a write below
LEN while BUSY = 1 is refused (70_reset_and_hazards.md R255, U2); a read of a byte never written faults (U4). Where
two of these apply, being beyond MSG_BYTES names the stop (log 24, DESIGN CHOICE). -/
def Obligations.MessageTransactionsStop : Prop :=
  ∀ (s : State) (addr : BitVec 61) (byte : Byte),
    (s.MSG_BYTES ≤ addr.toNat → exec (.msgwr addr byte) s = .refused .beyondMsgBytes ∧
      exec (.msgrd addr) s = .refused .beyondMsgBytes) ∧
    (addr.toNat < s.MSG_BYTES → s.BUSY = true → addr.toNat < s.LEN.toNat →
      exec (.msgwr addr byte) s = .refused .messageWrittenWhileBusy) ∧
    (addr.toNat < s.MSG_BYTES → s.MSG.read addr.toNat = none → exec (.msgrd addr) s = .fault .unwrittenByte)

/-! ## Frames and whole-machine rules -/

/-- The engine's columns of the access matrix (10_state.md R41): what each micro-operation may change, and that none
changes a byte of memory (40_padder_splitter.md R129). -/
def Obligations.EngineFrame : Prop :=
  ∀ (i : Instr) (s t : State), exec i s = .next t → i.isEngine = true →
    (i = .pad → t = { s with NBLK := t.NBLK, blk := t.blk, seq := t.seq } ∨
      t = { s with seq := t.seq, BUSY := t.BUSY, DONE := t.DONE, ERR := t.ERR, CAUSE := t.CAUSE }) ∧
    (i = .init → t = { s with H := t.H, seq := t.seq }) ∧
    (i = .ldblk → t = { s with W := t.W, seq := t.seq } ∧ ∀ k : Fin 64, 16 ≤ k.val → t.W[k] = s.W[k]) ∧
    (∀ n, i = .expand n → t = { s with W := t.W, seq := t.seq } ∧ ∀ k : Fin 64, k ≠ n → t.W[k] = s.W[k]) ∧
    (i = .ldwork → t = { s with V := t.V, seq := t.seq }) ∧
    (∀ n, i = .round n → t = { s with V := t.V, seq := t.seq }) ∧
    (i = .feedfwd → t = { s with H := t.H, blk := t.blk, seq := t.seq }) ∧
    (i = .finish → t = { s with seq := t.seq, BUSY := t.BUSY, DONE := t.DONE }) ∧
    (∀ a, t.MSG.read a = s.MSG.read a)

/-- The host's rows of the access matrix (R41): START touches LEN, `seq` and the flags; MLEN writes only MLEN; MSGWR
only the byte it addresses; every other transaction nothing of the engine. No transaction touches H, a..h, W, NBLK or
blk (44_host_interface.md R206). The reserved write with the data 0 or 1, which no encoding gives, counts as ignored
(log 22, DESIGN CHOICE). -/
def Obligations.HostFrame : Prop :=
  ∀ (i : Instr) (s t : State), exec i s = .next t → i.isEngine = false →
    (t.H = s.H ∧ t.V = s.V ∧ t.W = s.W ∧ t.NBLK = s.NBLK ∧ t.blk = s.blk ∧ t.MSG_BYTES = s.MSG_BYTES ∧
      t.inputs = s.inputs) ∧
    (i ≠ .start → t.LEN = s.LEN ∧ t.seq = s.seq ∧ t.BUSY = s.BUSY ∧ t.DONE = s.DONE ∧ t.ERR = s.ERR ∧
      t.CAUSE = s.CAUSE) ∧
    ((∀ d, i ≠ .wrmlenlo d) → (∀ d, i ≠ .wrmlenhi d) → t.MLEN = s.MLEN) ∧
    (∀ a, (∀ (addr : BitVec 61) (b : Byte), i = .msgwr addr b → a ≠ addr.toNat) →
      t.MSG.read a = s.MSG.read a)

/-- While BUSY = 1 no transaction of the host that completes changes anything of the running computation (no
cancellation, R206, R193); only MLEN, MSG and the host's own answers can change. That the Message, MSG below LEN, is
among what stays rests on the model's refusal of a write below LEN while BUSY (log 9, DEDUCED from
70_reset_and_hazards.md R255 and U2); that a reserved write with data 1 is no START is log 22 (DESIGN CHOICE). -/
def Obligations.HostCannotDisturbAComputation : Prop :=
  ∀ (i : Instr) (s t : State), exec i s = .next t → i.isEngine = false → s.BUSY = true →
    t = { s with MLEN := t.MLEN, MSG := t.MSG, outputs := t.outputs, freeCtr := t.freeCtr } ∧
    (∀ a < s.LEN.toNat, t.MSG.read a = s.MSG.read a) ∧ t.message = s.message

/-- No access to any register can fault (10_state.md R39, 44_host_interface.md R190): every register transaction
completes in every state. That a reserved write with the data 0 or 1, which no encoding gives, completes too is the
model's choice (log 22, DESIGN CHOICE). -/
def Obligations.RegisterAccessesComplete : Prop :=
  ∀ (i : Instr) (s : State), i.isEngine = false → (∀ a b, i ≠ .msgwr a b) → (∀ a, i ≠ .msgrd a) →
    ∃ t, exec i s = .next t

/-! ## The step (00_scope.md R12, 44_host_interface.md R203, 70_reset_and_hazards.md R251) -/

/-- A STEP RUNS THE DECODED OPERATION: a host transaction that is the next input, or the word in `seq` when the turn is
the engine's, decodes to i, and the step is exec of i on the state with that input taken. -/
def Obligations.StepRunsTheDecodedOperation : Prop :=
  ∀ (s : State) (i : Instr),
    (∀ h rest, s.inputs = .host h :: rest → decode (.host h) = .ok i → step s = exec i { s with inputs := rest }) ∧
    (∀ rest, s.inputs = .engine :: rest → decode (.seq s.seq) = .ok i → step s = exec i { s with inputs := rest }) ∧
    (s.inputs = [] → decode (.seq s.seq) = .ok i → step s = exec i s)

/-- The turns without an operation: an idle engine has no step (R203, R234), and a value of `seq` outside the table is
stuck (30_encoding.md R106, U7). With no input left the turn is the engine's (log 1), an idle turn changes nothing
(log 13), and being stuck is a named fault (log 12). -/
def Obligations.IdleAndStuckTurns : Prop :=
  ∀ s : State, s.inputs = [] →
    (s.seq = 0x000#10 → step s = .next s) ∧
    (s.seq ≠ 0x000#10 → (∀ i, decode (.seq s.seq) ≠ .ok i) → step s = .fault .stuckSequencer)

/-- The successor of every sequencer value, word for word (R203, 95_test_vectors.md V-SEQ), for the engine's step in
any state; an empty list of inputs gives the engine the turn (log 1, DESIGN CHOICE). -/
def Obligations.SequencerFollowsTheGraph : Prop :=
  ∀ s t : State, s.inputs = [] → step s = .next t →
    (s.seq = 0x040#10 → s.LEN.toNat < 2 ^ 61 → t.seq = 0x080#10) ∧
    (s.seq = 0x040#10 → 2 ^ 61 ≤ s.LEN.toNat → t.seq = 0x000#10 ∧ t.ERR = true) ∧
    (s.seq = 0x080#10 → t.seq = 0x0c0#10) ∧
    (s.seq = 0x0c0#10 → t.seq = 0x110#10) ∧
    (0x110 ≤ s.seq.toNat → s.seq.toNat < 0x13f → t.seq.toNat = s.seq.toNat + 1) ∧
    (s.seq = 0x13f#10 → t.seq = 0x140#10) ∧
    (s.seq = 0x140#10 → t.seq = 0x180#10) ∧
    (0x180 ≤ s.seq.toNat → s.seq.toNat < 0x1bf → t.seq.toNat = s.seq.toNat + 1) ∧
    (s.seq = 0x1bf#10 → t.seq = 0x1c0#10) ∧
    (s.seq = 0x1c0#10 → s.blk.toNat + 1 < s.NBLK.toNat → t.seq = 0x0c0#10 ∧ t.blk.toNat = s.blk.toNat + 1) ∧
    (s.seq = 0x1c0#10 → s.blk.toNat + 1 = s.NBLK.toNat → t.seq = 0x200#10) ∧
    (s.seq = 0x200#10 → t.seq = 0x000#10 ∧ t.DONE = true)

/-- What RESET leaves, in any state, a running computation abandoned (70_reset_and_hazards.md R251, R252): the values
the spec gives, no byte of MSG holding a value, STATUS reading 0. The model's own fields keep their values, but for the
input taken: MSG_BYTES, the inputs still to come, the answers and the count of free values (log 5). -/
def Obligations.ResetEventLeaves : Prop :=
  ∀ (s : State) (rest : List Input), s.inputs = .reset :: rest → ∃ t, step s = .next t ∧
    t.seq = 0x000#10 ∧ t.BUSY = false ∧ t.DONE = false ∧ t.ERR = false ∧ t.CAUSE = 0 ∧ t.MLEN = 0 ∧
    (∀ a, t.MSG.read a = none) ∧ t.status = 0 ∧
    t.MSG_BYTES = s.MSG_BYTES ∧ t.inputs = rest ∧ t.outputs = s.outputs ∧ t.freeCtr = s.freeCtr

/-- The state right after reset, the values 10_state.md R44 gives: `seq` (IDLE, 0), flags and MLEN 0, STATUS 0, no byte
of MSG holding a value. -/
def Obligations.ResetStateValues : Prop :=
  State.reset.seq = 0x000#10 ∧ State.reset.BUSY = false ∧ State.reset.DONE = false ∧ State.reset.ERR = false ∧
  State.reset.CAUSE = 0 ∧ State.reset.MLEN = 0 ∧ State.reset.status = 0 ∧ ∀ a, State.reset.MSG.read a = none

/-- The one race (60_exceptions.md R230): a START that comes before the step that clears BUSY is ignored and the
computation finishes; one that comes after it is accepted. The order is that of the model's list of inputs (log 1). -/
def Obligations.StartRacingTheEnd : Prop :=
  ∀ (s : State) (rest : List Input), s.seq = 0x200#10 → s.BUSY = true →
    (s.inputs = startCommand :: .engine :: rest → ∃ t, steps 2 s = .next t ∧
      t = { s with BUSY := false, DONE := true, seq := 0x000#10, inputs := rest }) ∧
    (s.inputs = .engine :: startCommand :: rest → ∃ t, steps 2 s = .next t ∧
      t = { s with LEN := s.MLEN, BUSY := true, DONE := false, ERR := false, CAUSE := 0, seq := 0x040#10,
                   inputs := rest })

/-! ## Invariants -/

/-- The state after reset keeps the invariants (MSG_BYTES is there the 2^61 of log 3, DESIGN CHOICE). -/
def Obligations.ResetKeepsInvariants : Prop := State.reset.Inv ∧ State.reset.DigestInv

/-- EVERY STEP KEEPS THE INVARIANTS, from any state that has them, whatever the inputs: the memory's canonical form and
bounds, a legal sequencer value, BUSY = 1 exactly when the phase is not IDLE, at most one of BUSY, DONE, ERR, CAUSE = 1
exactly when ERR = 1 (10_state.md R28, 30_encoding.md R106), block registers that agree with LEN (R25, R26). -/
def Obligations.StepKeepsInvariants : Prop :=
  ∀ s t : State, s.Inv → step s = .next t → t.Inv

/-- EVERY STEP KEEPS WHAT THE COMPUTATION HAS COMPUTED, whatever the host and the engine interleave: at each phase H is
the Hash State after the earlier blocks, W the schedule so far, a..h the registers after the rounds so far
(41_schedule.md R144, 42_compress.md R164, R165). That no interleaving disturbs it rests on the model's refusal of a
host write below LEN while BUSY (log 9, DEDUCED from 70_reset_and_hazards.md R255 and U2). -/
def Obligations.StepKeepsTheDigestSoFar : Prop :=
  ∀ s t : State, s.Inv → s.DigestInv → step s = .next t → t.DigestInv

/-- From states with the invariants, the digest that FINISH publishes is SHA256 of the Message that MSG[0..LEN−1]
holds (42_compress.md R165, 44_host_interface.md R208), whatever inputs are still to come. -/
def Obligations.PublishedDigestIsSha256 : Prop :=
  ∀ s t : State, s.Inv → s.DigestInv → s.DONE = false → step s = .next t → t.DONE = true →
    t.H = sha256 s.message ∧ t.message = s.message

/-- DONE and H, or ERR and CAUSE, stay as they are until a START is accepted or RESET comes (43_formatter.md R180,
60_exceptions.md R227): from an idle engine, every other step keeps them. -/
def Obligations.OutcomeStaysUntilStart : Prop :=
  ∀ s t : State, s.Inv → s.BUSY = false → step s = .next t →
    (∀ rest, s.inputs ≠ .reset :: rest) → (∀ rest, s.inputs ≠ startCommand :: rest) →
    t.DONE = s.DONE ∧ t.ERR = s.ERR ∧ t.CAUSE = s.CAUSE ∧ t.BUSY = false ∧ t.H = s.H

/-- No micro-operation waits and none fails (R205, R223): from states with the invariants, with the Message of a
computation in progress wholly written inside the memory, the engine's step has a successor; an empty list of inputs gives the engine the turn (log 1, DESIGN CHOICE). -/
def Obligations.EngineAlwaysProceeds : Prop :=
  ∀ s : State, s.Inv → s.inputs = [] → (s.LEN.toNat < 2 ^ 61 → s.MessageReady s.LEN.toNat) →
    ∃ t, step s = .next t

/-! ## Whole computations -/

/-- The 115 steps of one block (R204) are COMPRESS (42_compress.md R164): from LDBLK with the invariants, the block's
bytes at hand and no host input, H becomes COMPRESS(H, BLOCK(blk)) and the engine stands at the next block or at
FINISH. With no input left every turn is the engine's (log 1). -/
def Obligations.OneBlockIsCompress : Prop :=
  ∀ s : State, s.seq = 0x0c0#10 → s.inputs = [] → s.BlocksOk → s.BlockReady → ∃ t, steps 115 s = .next t ∧
    t.H = compressBlock s.H (blockByte s.message s.blk.toNat) ∧
    (s.blk.toNat + 1 < s.NBLK.toNat → t.blk.toNat = s.blk.toNat + 1 ∧ t.seq = 0x0c0#10) ∧
    (s.blk.toNat + 1 = s.NBLK.toNat → t.blk = s.blk ∧ t.seq = 0x200#10) ∧
    t = { s with H := t.H, V := t.V, W := t.W, blk := t.blk, seq := t.seq }

/-- A DIGEST COMPUTATION COMPUTES SHA-256 (42_compress.md R165, 44_host_interface.md R204, R205, R208): from PAD, with
LEN < 2^61 and the Message wholly written inside the memory, whatever else the state holds, after exactly
115·N + 3 engine steps, N = (LEN + 72) div 64, BUSY is 0, DONE is 1 and H is SHA256 of the Message; before that the
engine is never idle. With no input left every turn is the engine's (log 1). -/
def Obligations.ComputationYieldsSha256 : Prop :=
  ∀ s : State, s.seq = 0x040#10 → s.inputs = [] → s.LEN.toNat < 2 ^ 61 → s.MessageReady s.LEN.toNat →
    (∃ t, steps (115 * ((s.LEN.toNat + 72) / 64) + 3) s = .next t ∧
      t = { s with H := sha256 s.message, V := t.V, W := t.W, NBLK := t.NBLK, blk := t.blk, seq := 0x000#10,
                   BUSY := false, DONE := true }) ∧
    (∀ n < 115 * ((s.LEN.toNat + 72) / 64) + 3, ∃ u, steps n s = .next u ∧ u.seq ≠ 0x000#10)

/-- Control does not depend on data, results do not depend on the past (42_compress.md R175, 10_state.md R45,
44_host_interface.md R209): two computations of the same length, whatever the two machines held before, go through the
same `seq`, BUSY, blk and NBLK at every step; and with the same Message bytes they end with the same H. With no input left
every turn is the engine's (log 1), an idle one changing nothing (log 13). -/
def Obligations.ResultDependsOnTheMessageOnly : Prop :=
  ∀ s t : State, s.seq = 0x040#10 → t.seq = 0x040#10 → s.inputs = [] → t.inputs = [] → s.LEN = t.LEN →
    s.LEN.toNat < 2 ^ 61 → s.BUSY = true → t.BUSY = true →
    s.MessageReady s.LEN.toNat → t.MessageReady t.LEN.toNat →
    (∀ n, ∃ u v, steps n s = .next u ∧ steps n t = .next v ∧ u.seq = v.seq ∧ u.BUSY = v.BUSY ∧
      (n ≠ 0 → u.blk = v.blk ∧ u.NBLK = v.NBLK)) ∧
    ((∀ a < s.LEN.toNat, s.MSG.read a = t.MSG.read a) →
      ∀ n u v, 115 * ((s.LEN.toNat + 72) / 64) + 3 ≤ n → steps n s = .next u → steps n t = .next v → u.H = v.H)

/-- The host's operation `digest M` (30_encoding.md R110, 44_host_interface.md R207, R208): from an idle engine, loading
M, writing its length, START, polling STATUS after each of the 115·N + 3 engine steps and reading DHEX0..15 returns, as
its last poll, 0x2, and as its last sixteen words the characters of HEX(SHA256(M)). The interleaving is that of the
model's inputs (log 1), the answers are read from `outputs` (log 2), the character codes are log 21's. -/
def Obligations.DigestCommandReturnsTheHexDigest : Prop :=
  ∀ (s : State) (m : List Byte), s.seq = 0x000#10 → s.BUSY = false → m.length < 2 ^ 61 →
    m.length ≤ s.MSG_BYTES →
    s.inputs = digestCommand m (115 * ((m.length + 72) / 64) + 3) ++ rdhex → ∃ t,
      steps s.inputs.length s = .next t ∧ t.inputs = [] ∧ t.DONE = true ∧ t.ERR = false ∧
      t.outputs.take 17 = (Response.word 0x00000002 ::
        List.ofFn fun q : Fin 16 => Response.word (dhexWord (sha256 m) q)).reverse
end

