-- ==== Sys2Proof/Laws/Decode.lean ====
section
/-! SUPPORT. The sequencer word and its decoding: the fields of {phase, idx} read back, equal words have equal fields,
and each phase decodes to its micro-operation. -/

namespace Sys2Proof

theorem seqWord_toNat (p : Phase) (i : Fin 64) : (seqWord p i).toNat = 64 * p.code.toNat + i.val := by
  have hi := i.isLt
  have : (p.code ++ BitVec.ofNat 6 i.val).toNat = p.code.toNat * 2 ^ 6 + i.val := by
    rw [BitVec.toNat_append, BitVec.toNat_ofNat, Nat.mod_eq_of_lt (by omega : i.val < 2 ^ 6),
      ← Nat.shiftLeft_add_eq_or_of_lt (by omega), Nat.shiftLeft_eq]
  rw [seqWord]
  exact this.trans (by omega)

theorem Phase.code_inj {p q : Phase} (h : p.code = q.code) : p = q := by
  revert h
  cases p <;> cases q <;> decide

@[simp] theorem seqPhase_seqWord (p : Phase) (i : Fin 64) : seqPhase (seqWord p i) = p.code := by
  apply BitVec.eq_of_toNat_eq
  have hp := p.code.isLt
  have hi := i.isLt
  simp only [seqPhase, BitVec.extractLsb'_toNat, seqWord_toNat, Nat.shiftRight_eq_div_pow]
  omega

@[simp] theorem seqIdx_seqWord (p : Phase) (i : Fin 64) : seqIdx (seqWord p i) = i := by
  apply Fin.ext
  have hi := i.isLt
  simp only [seqIdx, BitVec.extractLsb'_toNat, seqWord_toNat, Nat.shiftRight_eq_div_pow]
  omega

/-- Equal sequencer words have equal fields. -/
@[simp] theorem seqWord_inj {p q : Phase} {i j : Fin 64} : seqWord p i = seqWord q j ↔ p = q ∧ i = j := by
  constructor
  · intro h
    have h1 := congrArg seqPhase h
    have h2 := congrArg seqIdx h
    simp only [seqPhase_seqWord, seqIdx_seqWord] at h1 h2
    exact ⟨Phase.code_inj h1, h2⟩
  · rintro ⟨rfl, rfl⟩; rfl

/-- A sequencer word is its two fields. -/
theorem seqWord_of_fields {w : BitVec 10} {p : Phase} (h : seqPhase w = p.code) : w = seqWord p (seqIdx w) := by
  apply BitVec.eq_of_toNat_eq
  have h1 := congrArg BitVec.toNat h
  have hw := w.isLt
  simp only [seqPhase, BitVec.extractLsb'_toNat, Nat.shiftRight_eq_div_pow] at h1
  simp only [seqWord_toNat, seqIdx, BitVec.extractLsb'_toNat, Nat.shiftRight_eq_div_pow, ← h1]
  omega

@[simp] theorem decode_seq_pad : decode (.seq (seqWord .pad 0)) = .ok .pad := rfl
@[simp] theorem decode_seq_init : decode (.seq (seqWord .init 0)) = .ok .init := rfl
@[simp] theorem decode_seq_ldblk : decode (.seq (seqWord .ldblk 0)) = .ok .ldblk := rfl
@[simp] theorem decode_seq_ldwork : decode (.seq (seqWord .ldwork 0)) = .ok .ldwork := rfl
@[simp] theorem decode_seq_feedfwd : decode (.seq (seqWord .feedfwd 0)) = .ok .feedfwd := rfl
@[simp] theorem decode_seq_finish : decode (.seq (seqWord .finish 0)) = .ok .finish := rfl

@[simp] theorem decode_seq_round (i : Fin 64) : decode (.seq (seqWord .round i)) = .ok (.round i) := by
  simp [decode, decodeSeq, Phase.code]

theorem decode_seq_expand {i : Fin 64} (h : 16 ≤ i.val) : decode (.seq (seqWord .expand i)) = .ok (.expand i) := by
  simp [decode, decodeSeq, Phase.code, h]

/-- The operation of a micro-operation's phase. -/
theorem plainPhase_ok {w : BitVec 10} {i j : Instr} (h : plainPhase w i = .ok j) : seqIdx w = 0 ∧ j = i := by
  unfold plainPhase at h
  split at h
  · exact ⟨‹_›, by simpa using h.symm⟩
  · simp at h

/-- What a sequencer word that decodes can be: the words of 30_encoding.md R100, each with its micro-operation. -/
theorem decodeSeq_cases {w : BitVec 10} {i : Instr} (h : decodeSeq w = .ok i) :
    (w = seqWord .pad 0 ∧ i = .pad) ∨ (w = seqWord .init 0 ∧ i = .init) ∨ (w = seqWord .ldblk 0 ∧ i = .ldblk) ∨
    (∃ k, 16 ≤ k.val ∧ w = seqWord .expand k ∧ i = .expand k) ∨ (w = seqWord .ldwork 0 ∧ i = .ldwork) ∨
    (∃ k, w = seqWord .round k ∧ i = .round k) ∨ (w = seqWord .feedfwd 0 ∧ i = .feedfwd) ∨
    (w = seqWord .finish 0 ∧ i = .finish) := by
  have key : ∀ (p : Phase), (seqPhase w).toNat = p.code.toNat → w = seqWord p (seqIdx w) := fun p hp =>
    seqWord_of_fields (BitVec.eq_of_toNat_eq hp)
  unfold decodeSeq at h
  split at h
  · have ⟨h0, hi⟩ := plainPhase_ok h; have := key .pad (by assumption); rw [h0] at this; simp [this, hi]
  · have ⟨h0, hi⟩ := plainPhase_ok h; have := key .init (by assumption); rw [h0] at this; simp [this, hi]
  · have ⟨h0, hi⟩ := plainPhase_ok h; have := key .ldblk (by assumption); rw [h0] at this; simp [this, hi]
  · have := key .expand (by assumption)
    split at h
    · refine .inr (.inr (.inr (.inl ⟨seqIdx w, ‹_›, this, by simpa using h.symm⟩)))
    · simp at h
  · have ⟨h0, hi⟩ := plainPhase_ok h; have := key .ldwork (by assumption); rw [h0] at this; simp [this, hi]
  · have := key .round (by assumption)
    exact .inr (.inr (.inr (.inr (.inr (.inl ⟨seqIdx w, this, by simpa using h.symm⟩)))))
  · have ⟨h0, hi⟩ := plainPhase_ok h; have := key .feedfwd (by assumption); rw [h0] at this; simp [this, hi]
  · have ⟨h0, hi⟩ := plainPhase_ok h; have := key .finish (by assumption); rw [h0] at this; simp [this, hi]
  · simp at h

end Sys2Proof
end

