-- ==== Sys2Proof/Laws/Memory.lean ====
section
/-! SUPPORT. The laws of the message memory: a read after a write, every other address left alone, the canonical form
kept, and equal reads meaning equal memories. -/

namespace Sys2Proof.Machine

/-- Every memory operation that writes keeps what the entries' addresses satisfy. -/
theorem Memory.write_all {p : Nat → Prop} {m : Memory} {a : Nat} {v : Byte} (h : ∀ c ∈ m, p c.1) (ha : p a) :
    ∀ c ∈ m.write a v, p c.1 := by
  induction m with
  | nil => simpa [Memory.write] using ha
  | cons x rest ih =>
    obtain ⟨y, b⟩ := x
    simp only [List.forall_mem_cons] at h
    unfold Memory.write
    split
    · simpa [h.1, ha] using h.2
    · split
      · simpa [ha] using h.2
      · simpa [h.1] using ih h.2

/-- A write keeps the canonical form. -/
theorem Memory.write_wf {m : Memory} {a : Nat} {v : Byte} (h : m.wf) : (m.write a v).wf := by
  induction m with
  | nil => simp [Memory.write, Memory.wf]
  | cons x rest ih =>
    obtain ⟨y, b⟩ := x
    simp only [Memory.wf, List.pairwise_cons] at h
    unfold Memory.write
    split
    · rename_i hlt
      simp only [Memory.wf, List.pairwise_cons, List.forall_mem_cons]
      exact ⟨⟨hlt, fun c hc => hlt.trans (h.1 c hc)⟩, h.1, h.2⟩
    · split
      · rename_i heq
        subst heq
        simpa [Memory.wf, List.pairwise_cons] using h
      · simp only [Memory.wf, List.pairwise_cons]
        exact ⟨Memory.write_all (p := fun z => y < z) h.1 (by omega), ih h.2⟩

/-- An address below every entry holds no value. -/
theorem Memory.read_below {m : Memory} {a : Nat} (h : ∀ c ∈ m, a < c.1) : m.read a = none := by
  induction m with
  | nil => rfl
  | cons x rest ih =>
    simp only [List.forall_mem_cons] at h
    unfold Memory.read
    rw [if_neg (Nat.ne_of_lt h.1), ih h.2]

/-- The byte read is that of an entry of the memory. -/
theorem Memory.mem_of_read {m : Memory} {a : Nat} {b : Byte} (h : m.read a = some b) : (a, b) ∈ m := by
  induction m with
  | nil => simp [Memory.read, Memory.unlisted] at h
  | cons x rest ih =>
    obtain ⟨y, c⟩ := x
    unfold Memory.read at h
    split at h
    · simp_all
    · simp [ih h]

/-- A write leaves every other address alone. -/
theorem Memory.read_write_other {m : Memory} {a c : Nat} {v : Byte} (h : c ≠ a) :
    (m.write a v).read c = m.read c := by
  induction m with
  | nil => simp [Memory.write, Memory.read, h]
  | cons x rest ih =>
    obtain ⟨y, b⟩ := x
    unfold Memory.write
    split
    · simp [Memory.read, h]
    · split
      · simp_all [Memory.read]
      · simp [Memory.read, ih]

/-- A read after a write to the same address gives the byte written. -/
@[simp] theorem Memory.read_write_same (m : Memory) (a : Nat) (v : Byte) : (m.write a v).read a = some v := by
  induction m with
  | nil => simp [Memory.write, Memory.read]
  | cons x rest ih =>
    obtain ⟨y, b⟩ := x
    unfold Memory.write
    split
    · simp [Memory.read]
    · split
      · simp [Memory.read]
      · rename_i hne
        simp [Memory.read, hne, ih]

/-- In canonical form, equal reads mean equal memories. -/
theorem Memory.ext_of_wf {m n : Memory} (hm : m.wf) (hn : n.wf) (h : ∀ a, m.read a = n.read a) : m = n := by
  induction m generalizing n with
  | nil =>
    cases n with
    | nil => rfl
    | cons x rest => have := h x.1; simp [Memory.read, Memory.unlisted] at this
  | cons x rest ih =>
    obtain ⟨xa, xb⟩ := x
    simp only [Memory.wf, List.pairwise_cons] at hm
    cases n with
    | nil => have := h xa; simp [Memory.read, Memory.unlisted] at this
    | cons y rest' =>
      obtain ⟨ya, yb⟩ := y
      simp only [Memory.wf, List.pairwise_cons] at hn
      have h1 : xa = ya := by
        rcases Nat.lt_trichotomy xa ya with hlt | heq | hgt
        · have := h xa
          rw [Memory.read_below (m := (ya, yb) :: rest') (a := xa)] at this
          · simp [Memory.read] at this
          · simp only [List.forall_mem_cons]; exact ⟨hlt, fun c hc => hlt.trans (hn.1 c hc)⟩
        · exact heq
        · have := h ya
          rw [Memory.read_below (m := (xa, xb) :: rest) (a := ya)] at this
          · simp [Memory.read] at this
          · simp only [List.forall_mem_cons]; exact ⟨hgt, fun c hc => hgt.trans (hm.1 c hc)⟩
      subst h1
      have h2 := h xa
      simp only [Memory.read, if_true, Option.some.injEq] at h2
      subst h2
      congr 1
      refine ih hm.2 hn.2 fun a => ?_
      by_cases ha : a = xa
      · rw [ha, Memory.read_below hm.1, Memory.read_below hn.1]
      · have := h a
        simpa [Memory.read, ha] using this

end Sys2Proof.Machine
end

