-- ==== Sys2Proof/Laws/Operands.lean ====
section
/-! SUPPORT. What the shared operand forms give: the length test and counts by arithmetic, the Padded Message range by
range, when a block can be loaded, the words it loads, and the Hash State folded back. -/

namespace Sys2Proof.Machine

/-! The Round Constants. -/

/-- One word of a ROM line by arithmetic. -/
theorem romWord_toNat (line : BitVec 128) (k : Nat) :
    (romWord line k).toNat = line.toNat / 2 ^ (96 - 32 * k) % 2 ^ 32 := by
  rw [romWord, BitVec.extractLsb'_toNat, Nat.shiftRight_eq_div_pow]

/-- K[i] is word i mod 4 of ROM line i div 4 (10_state.md R30). -/
theorem roundK_getElem (i : Nat) (h : i < 64) :
    roundK[i] = romWord (roundRom[i / 4]'(by omega)) (i % 4) := by
  simp only [roundK, Vector.getElem_ofFn]

/-! Lengths. -/

theorem lengthOverflows_iff (len : BitVec 64) : lengthOverflows len = true ↔ 2 ^ 61 ≤ len.toNat := by
  have hl := len.isLt
  have : (len.extractLsb' 61 3).toNat = len.toNat / 2 ^ 61 := by
    rw [BitVec.extractLsb'_toNat, Nat.shiftRight_eq_div_pow]; omega
  simp only [lengthOverflows, bne_iff_ne, ne_eq, ← BitVec.toNat_inj, this]
  simp only [BitVec.ofNat_eq_ofNat, BitVec.toNat_ofNat]
  omega

theorem blockCount_toNat {len : BitVec 64} (h : len.toNat < 2 ^ 61) :
    (blockCount len).toNat = messageBlocks len.toNat := by
  rw [blockCount, BitVec.toNat_ofNat, messageBlocks]
  omega

theorem bitLength_eq {len : BitVec 64} (h : len.toNat < 2 ^ 61) : bitLength len = BitVec.ofNat 64 (8 * len.toNat) := by
  apply BitVec.eq_of_toNat_eq
  have : (len.extractLsb' 0 61 ++ (0 : BitVec 3)).toNat = len.toNat * 2 ^ 3 := by
    have h3 : (0 : BitVec 3).toNat < 2 ^ 3 := by decide
    rw [BitVec.toNat_append, ← Nat.shiftLeft_add_eq_or_of_lt h3, Nat.shiftLeft_eq, BitVec.extractLsb'_toNat]
    simp only [Nat.shiftRight_zero, Nat.mod_eq_of_lt h]
    rfl
  rw [bitLength, BitVec.toNat_ofNat]
  exact this.trans (by omega)

/-! The engine's read of one byte. -/

theorem engineRead_ok {s : State} {a : Nat} {b : Byte} (h : a < s.MSG_BYTES) (hb : s.MSG.read a = some b) :
    engineRead s a = .ok b := by
  simp [engineRead, h, hb]

theorem engineRead_ok_iff {s : State} {a : Nat} {b : Byte} :
    engineRead s a = .ok b ↔ a < s.MSG_BYTES ∧ s.MSG.read a = some b := by
  unfold engineRead
  split
  · cases s.MSG.read a <;> simp_all
  · simp_all

theorem engineRead_beyond {s : State} {a : Nat} (h : s.MSG_BYTES ≤ a) : engineRead s a = .error .beyondMsgBytes := by
  simp [engineRead, Nat.not_lt.mpr h]

theorem engineRead_unwritten {s : State} {a : Nat} (h : a < s.MSG_BYTES) (hb : s.MSG.read a = none) :
    engineRead s a = .error .unwrittenMessageByte := by
  simp [engineRead, h, hb]

/-! The Padded Message, range by range (40_padder_splitter.md R123). -/

theorem paddedByte_message {s : State} {j : Nat} (h : j < s.LEN.toNat) : paddedByte s j = engineRead s j := by
  simp [paddedByte, h]

theorem paddedByte_marker (s : State) : paddedByte s s.LEN.toNat = .ok 0x80 := by
  simp [paddedByte]

theorem paddedByte_zero {s : State} {j : Nat} (h1 : s.LEN.toNat < j) (h2 : j + 8 < 64 * s.NBLK.toNat) :
    paddedByte s j = .ok 0 := by
  simp [paddedByte, Nat.not_lt.mpr h1.le, Nat.ne_of_gt h1, h2]

theorem paddedByte_suffix {s : State} {j : Nat} (h1 : s.LEN.toNat < j) (h2 : 64 * s.NBLK.toNat ≤ j + 8)
    (h3 : j < 64 * s.NBLK.toNat) :
    paddedByte s j = .ok (be64Byte (bitLength s.LEN) (j + 8 - 64 * s.NBLK.toNat)) := by
  simp [paddedByte, Nat.not_lt.mpr h1.le, Nat.ne_of_gt h1, Nat.not_lt.mpr h2, h3]

/-- At or beyond LEN no byte is missing, and no memory is read. -/
theorem paddedStop_padding {s : State} {j : Nat} (h : s.LEN.toNat ≤ j) : paddedStop s j = none := by
  have : ∃ b, paddedByte s j = .ok b := by
    unfold paddedByte
    simp only [if_neg (Nat.not_lt.mpr h)]
    split
    · exact ⟨_, rfl⟩
    · split
      · exact ⟨_, rfl⟩
      · split <;> exact ⟨_, rfl⟩
  obtain ⟨b, hb⟩ := this
  simp [paddedStop, hb]

theorem paddedStop_eq_none {s : State} {j : Nat} :
    paddedStop s j = none ↔ (j < s.LEN.toNat → j < s.MSG_BYTES ∧ ∃ b, s.MSG.read j = some b) := by
  by_cases h : j < s.LEN.toNat
  · simp only [paddedStop, paddedByte_message h, h, true_imp_iff]
    by_cases h1 : j < s.MSG_BYTES
    · cases h2 : s.MSG.read j <;> simp [engineRead, h1, h2]
    · simp [engineRead, h1]
  · simp [paddedStop_padding (Nat.le_of_not_lt h), h]

/-- LDBLK can load its block exactly when the Message bytes of the block can be had. -/
theorem blockStop_eq_none {s : State} : blockStop s = none ↔ s.BlockReady := by
  simp only [blockStop, List.findSome?_eq_none_iff, List.mem_range, paddedStop_eq_none, State.BlockReady]

/-! The words LDBLK loads. -/

theorem loadedSchedule_low (s : State) (k : Fin 64) (h : k.val < 16) : (loadedSchedule s)[k] = blockWord s k.val := by
  simp [loadedSchedule, h]

theorem loadedSchedule_high (s : State) (k : Fin 64) (h : 16 ≤ k.val) : (loadedSchedule s)[k] = s.W[k] := by
  simp [loadedSchedule, Nat.not_lt.mpr h]

/-! The reference's Padded Message, range by range. -/

theorem zeroCount_add (len : Nat) : len + 1 + zeroCount len + 8 = 64 * messageBlocks len := by
  simp only [zeroCount, messageBlocks]
  omega

theorem length_lengthSuffix (len : Nat) : (lengthSuffix len).length = 8 := by
  simp [lengthSuffix]

theorem length_paddedMessage (m : List Byte) : (paddedMessage m).length = 64 * messageBlocks m.length := by
  have := zeroCount_add m.length
  simp only [paddedMessage, List.length_append, List.length_cons, List.length_replicate, length_lengthSuffix]
  omega

theorem paddedMessage_message {m : List Byte} {j : Nat} (h : j < m.length) :
    (paddedMessage m).getD j 0 = m.getD j 0 := by
  simp [paddedMessage, List.getD, List.getElem?_append, h]

theorem paddedMessage_marker (m : List Byte) : (paddedMessage m).getD m.length 0 = 0x80 := by
  simp [paddedMessage, List.getD]

theorem paddedMessage_zero {m : List Byte} {j : Nat} (h1 : m.length < j) (h2 : j + 8 < 64 * messageBlocks m.length) :
    (paddedMessage m).getD j 0 = 0 := by
  have := zeroCount_add m.length
  obtain ⟨d, rfl⟩ := Nat.exists_eq_add_of_lt h1
  have h3 : d < zeroCount m.length := by omega
  have e : m.length + d + 1 - m.length = d + 1 := by omega
  simp [paddedMessage, List.getD, List.getElem?_append, h3, e, Nat.not_lt.mpr (by omega : m.length ≤ m.length + d + 1)]

theorem paddedMessage_suffix {m : List Byte} {j : Nat} (h2 : 64 * messageBlocks m.length ≤ j + 8)
    (h3 : j < 64 * messageBlocks m.length) :
    (paddedMessage m).getD j 0 =
      be64Byte (BitVec.ofNat 64 (8 * m.length)) (j + 8 - 64 * messageBlocks m.length) := by
  have hz := zeroCount_add m.length
  obtain ⟨d, hd⟩ : ∃ d, j = m.length + 1 + zeroCount m.length + d := ⟨j - (m.length + 1 + zeroCount m.length), by omega⟩
  have h5 : j + 8 - 64 * messageBlocks m.length = d := by omega
  have h6 : d < 8 := by omega
  rw [h5]
  subst hd
  have e1 : m.length + 1 + zeroCount m.length + d - m.length = (zeroCount m.length + d) + 1 := by omega
  have e2 : zeroCount m.length + d - zeroCount m.length = d := by omega
  simp [paddedMessage, List.getD, List.getElem?_append, e1, e2, lengthSuffix, h6,
    Nat.not_lt.mpr (by omega : m.length ≤ m.length + 1 + zeroCount m.length + d)]

/-! The Message of the machine. -/

@[simp] theorem length_message (s : State) : s.message.length = s.LEN.toNat := by simp [State.message]

theorem message_getD {s : State} {a : Nat} (h : a < s.LEN.toNat) :
    s.message.getD a 0 = (s.MSG.read a).getD 0 := by
  simp [State.message, List.getD, h]

/-- The Message depends on LEN and on the bytes below it only. -/
theorem message_congr {s t : State} (hl : s.LEN = t.LEN) (h : ∀ a < s.LEN.toNat, s.MSG.read a = t.MSG.read a) :
    s.message = t.message := by
  unfold State.message
  rw [← hl]
  apply List.map_congr_left
  intro a ha
  rw [h a (List.mem_range.mp ha)]

/-- THE MACHINE PADS LIKE THE SOURCE, one byte: where the block registers agree with LEN and the byte, if it is a Message
byte, can be had. -/
theorem paddedByte_eq {s : State} (hl : s.LEN.toNat < 2 ^ 61) (hn : s.NBLK.toNat = messageBlocks s.LEN.toNat)
    {j : Nat} (hj : j < 64 * s.NBLK.toNat)
    (hr : j < s.LEN.toNat → j < s.MSG_BYTES ∧ ∃ b, s.MSG.read j = some b) :
    paddedByte s j = .ok ((paddedMessage s.message).getD j 0) := by
  have hlen := length_message s
  rcases Nat.lt_trichotomy j s.LEN.toNat with h | h | h
  · obtain ⟨h1, b, h2⟩ := hr h
    rw [paddedByte_message h, engineRead_ok h1 h2, paddedMessage_message (by rw [hlen]; exact h), message_getD h, h2]
    rfl
  · subst h
    rw [paddedByte_marker]
    conv_rhs => rw [← hlen, paddedMessage_marker]
  · by_cases h2 : j + 8 < 64 * s.NBLK.toNat
    · rw [paddedByte_zero h h2, paddedMessage_zero (by rw [hlen]; exact h) (by rw [hlen, ← hn]; exact h2)]
    · rw [paddedByte_suffix h (by omega) hj, paddedMessage_suffix (by rw [hlen, ← hn]; omega) (by rw [hlen, ← hn]; exact hj),
        bitLength_eq hl, hlen, hn]

/-- The bytes of the block LDBLK loads are those of BLOCK(blk) of the Padded Message. -/
theorem paddedValue_block {s : State} (hb : s.BlocksOk) (hr : s.BlockReady) {q : Nat} (hq : q < 64) :
    paddedValue s (blockIndex s q) = blockByte s.message s.blk.toNat q := by
  obtain ⟨hl, hn, hk⟩ := hb
  have : paddedByte s (blockIndex s q) = .ok ((paddedMessage s.message).getD (blockIndex s q) 0) :=
    paddedByte_eq hl hn (by simp only [blockIndex]; omega) (hr q hq)
  simp only [paddedValue, this]
  rfl

theorem blockWord_eq {s : State} (hb : s.BlocksOk) (hr : s.BlockReady) {k : Nat} (hk : k < 16) :
    blockWord s k = be32 (blockByte s.message s.blk.toNat (4 * k)) (blockByte s.message s.blk.toNat (4 * k + 1))
      (blockByte s.message s.blk.toNat (4 * k + 2)) (blockByte s.message s.blk.toNat (4 * k + 3)) := by
  rw [blockWord, paddedValue_block hb hr (by omega), paddedValue_block hb hr (by omega),
    paddedValue_block hb hr (by omega), paddedValue_block hb hr (by omega)]

/-! SCHED by index (41_schedule.md R144). -/

theorem length_schedRev (b : Nat → Byte) (n : Nat) : (schedRev b n).length = 16 + n := by
  induction n with
  | zero => simp [schedRev]
  | succ n ih => simp [schedRev, ih]; omega

/-- A word of the schedule does not depend on how many later words stand before it. -/
theorem schedRev_getD (b : Nat → Byte) (n d k : Nat) : (schedRev b (n + d)).getD (k + d) 0 = (schedRev b n).getD k 0 := by
  induction d with
  | zero => rfl
  | succ d ih =>
    show (schedRev b (n + d + 1)).getD (k + d + 1) 0 = _
    simp only [schedRev, List.getD_cons_succ]
    exact ih

theorem sched_low (b : Nat → Byte) {k : Nat} (h : k < 16) :
    sched b k = be32 (b (4 * k)) (b (4 * k + 1)) (b (4 * k + 2)) (b (4 * k + 3)) := by
  have e : 63 - k = (15 - k) + 48 := by omega
  have h2 : 15 - k < 16 := by omega
  have h3 : 16 - 1 - (15 - k) = k := by omega
  rw [sched, e, show (48 : Nat) = 0 + 48 from rfl, schedRev_getD]
  simp [schedRev, List.getD, h2, h3]

/-- The recurrence of EXPAND (R143) is that of SCHED. -/
theorem sched_high (b : Nat → Byte) {i : Nat} (h : 16 ≤ i) (h2 : i < 64) :
    sched b i = expandWord (sched b (i - 2)) (sched b (i - 7)) (sched b (i - 15)) (sched b (i - 16)) := by
  obtain ⟨n, rfl⟩ : ∃ n, i = n + 16 := ⟨i - 16, by omega⟩
  have key : ∀ d, 1 ≤ d → d ≤ n + 16 → sched b (n + 16 - d) = (schedRev b n).getD (d - 1) 0 := by
    intro d h1 hd
    have e : 63 - (n + 16 - d) = (d - 1) + (48 - n) := by omega
    rw [sched, e, show (48 : Nat) = n + (48 - n) by omega, show n + (48 - n) - n = 48 - n by omega, schedRev_getD]
  have e : 63 - (n + 16) = 0 + (48 - (n + 1)) := by omega
  rw [sched, e, show (48 : Nat) = (n + 1) + (48 - (n + 1)) by omega,
    show (n + 1) + (48 - (n + 1)) - (n + 1) = 48 - (n + 1) by omega, schedRev_getD, key 2 (by omega) (by omega),
    key 7 (by omega) (by omega), key 15 (by omega) (by omega), key 16 (by omega) (by omega)]
  rfl

end Sys2Proof.Machine
end

