-- ==== Sys2Proof/Laws/State.lean ====
section
/-! SUPPORT. One lemma per field per named update of the state, true by rfl and simp lemmas, so that no proof unfolds
a record update. -/

namespace Sys2Proof.Machine

/-! goto -/

@[simp] theorem goto_H (s : State) (p : Phase) (i : Fin 64) : (s.goto p i).H = s.H := rfl
@[simp] theorem goto_V (s : State) (p : Phase) (i : Fin 64) : (s.goto p i).V = s.V := rfl
@[simp] theorem goto_W (s : State) (p : Phase) (i : Fin 64) : (s.goto p i).W = s.W := rfl
@[simp] theorem goto_LEN (s : State) (p : Phase) (i : Fin 64) : (s.goto p i).LEN = s.LEN := rfl
@[simp] theorem goto_NBLK (s : State) (p : Phase) (i : Fin 64) : (s.goto p i).NBLK = s.NBLK := rfl
@[simp] theorem goto_blk (s : State) (p : Phase) (i : Fin 64) : (s.goto p i).blk = s.blk := rfl
@[simp] theorem goto_seq (s : State) (p : Phase) (i : Fin 64) : (s.goto p i).seq = seqWord p i := rfl
@[simp] theorem goto_BUSY (s : State) (p : Phase) (i : Fin 64) : (s.goto p i).BUSY = s.BUSY := rfl
@[simp] theorem goto_DONE (s : State) (p : Phase) (i : Fin 64) : (s.goto p i).DONE = s.DONE := rfl
@[simp] theorem goto_ERR (s : State) (p : Phase) (i : Fin 64) : (s.goto p i).ERR = s.ERR := rfl
@[simp] theorem goto_CAUSE (s : State) (p : Phase) (i : Fin 64) : (s.goto p i).CAUSE = s.CAUSE := rfl
@[simp] theorem goto_MLEN (s : State) (p : Phase) (i : Fin 64) : (s.goto p i).MLEN = s.MLEN := rfl
@[simp] theorem goto_MSG (s : State) (p : Phase) (i : Fin 64) : (s.goto p i).MSG = s.MSG := rfl
@[simp] theorem goto_MSG_BYTES (s : State) (p : Phase) (i : Fin 64) : (s.goto p i).MSG_BYTES = s.MSG_BYTES := rfl
@[simp] theorem goto_inputs (s : State) (p : Phase) (i : Fin 64) : (s.goto p i).inputs = s.inputs := rfl
@[simp] theorem goto_outputs (s : State) (p : Phase) (i : Fin 64) : (s.goto p i).outputs = s.outputs := rfl
@[simp] theorem goto_freeCtr (s : State) (p : Phase) (i : Fin 64) : (s.goto p i).freeCtr = s.freeCtr := rfl

/-! setH -/

@[simp] theorem setH_H (s : State) (h : Vector Word 8) : (s.setH h).H = h := rfl
@[simp] theorem setH_V (s : State) (h : Vector Word 8) : (s.setH h).V = s.V := rfl
@[simp] theorem setH_W (s : State) (h : Vector Word 8) : (s.setH h).W = s.W := rfl
@[simp] theorem setH_LEN (s : State) (h : Vector Word 8) : (s.setH h).LEN = s.LEN := rfl
@[simp] theorem setH_NBLK (s : State) (h : Vector Word 8) : (s.setH h).NBLK = s.NBLK := rfl
@[simp] theorem setH_blk (s : State) (h : Vector Word 8) : (s.setH h).blk = s.blk := rfl
@[simp] theorem setH_seq (s : State) (h : Vector Word 8) : (s.setH h).seq = s.seq := rfl
@[simp] theorem setH_BUSY (s : State) (h : Vector Word 8) : (s.setH h).BUSY = s.BUSY := rfl
@[simp] theorem setH_DONE (s : State) (h : Vector Word 8) : (s.setH h).DONE = s.DONE := rfl
@[simp] theorem setH_ERR (s : State) (h : Vector Word 8) : (s.setH h).ERR = s.ERR := rfl
@[simp] theorem setH_CAUSE (s : State) (h : Vector Word 8) : (s.setH h).CAUSE = s.CAUSE := rfl
@[simp] theorem setH_MLEN (s : State) (h : Vector Word 8) : (s.setH h).MLEN = s.MLEN := rfl
@[simp] theorem setH_MSG (s : State) (h : Vector Word 8) : (s.setH h).MSG = s.MSG := rfl
@[simp] theorem setH_MSG_BYTES (s : State) (h : Vector Word 8) : (s.setH h).MSG_BYTES = s.MSG_BYTES := rfl
@[simp] theorem setH_inputs (s : State) (h : Vector Word 8) : (s.setH h).inputs = s.inputs := rfl
@[simp] theorem setH_outputs (s : State) (h : Vector Word 8) : (s.setH h).outputs = s.outputs := rfl
@[simp] theorem setH_freeCtr (s : State) (h : Vector Word 8) : (s.setH h).freeCtr = s.freeCtr := rfl

/-! setV -/

@[simp] theorem setV_H (s : State) (v : Work) : (s.setV v).H = s.H := rfl
@[simp] theorem setV_V (s : State) (v : Work) : (s.setV v).V = v := rfl
@[simp] theorem setV_W (s : State) (v : Work) : (s.setV v).W = s.W := rfl
@[simp] theorem setV_LEN (s : State) (v : Work) : (s.setV v).LEN = s.LEN := rfl
@[simp] theorem setV_NBLK (s : State) (v : Work) : (s.setV v).NBLK = s.NBLK := rfl
@[simp] theorem setV_blk (s : State) (v : Work) : (s.setV v).blk = s.blk := rfl
@[simp] theorem setV_seq (s : State) (v : Work) : (s.setV v).seq = s.seq := rfl
@[simp] theorem setV_BUSY (s : State) (v : Work) : (s.setV v).BUSY = s.BUSY := rfl
@[simp] theorem setV_DONE (s : State) (v : Work) : (s.setV v).DONE = s.DONE := rfl
@[simp] theorem setV_ERR (s : State) (v : Work) : (s.setV v).ERR = s.ERR := rfl
@[simp] theorem setV_CAUSE (s : State) (v : Work) : (s.setV v).CAUSE = s.CAUSE := rfl
@[simp] theorem setV_MLEN (s : State) (v : Work) : (s.setV v).MLEN = s.MLEN := rfl
@[simp] theorem setV_MSG (s : State) (v : Work) : (s.setV v).MSG = s.MSG := rfl
@[simp] theorem setV_MSG_BYTES (s : State) (v : Work) : (s.setV v).MSG_BYTES = s.MSG_BYTES := rfl
@[simp] theorem setV_inputs (s : State) (v : Work) : (s.setV v).inputs = s.inputs := rfl
@[simp] theorem setV_outputs (s : State) (v : Work) : (s.setV v).outputs = s.outputs := rfl
@[simp] theorem setV_freeCtr (s : State) (v : Work) : (s.setV v).freeCtr = s.freeCtr := rfl

/-! setW -/

@[simp] theorem setW_H (s : State) (w : Vector Word 64) : (s.setW w).H = s.H := rfl
@[simp] theorem setW_V (s : State) (w : Vector Word 64) : (s.setW w).V = s.V := rfl
@[simp] theorem setW_W (s : State) (w : Vector Word 64) : (s.setW w).W = w := rfl
@[simp] theorem setW_LEN (s : State) (w : Vector Word 64) : (s.setW w).LEN = s.LEN := rfl
@[simp] theorem setW_NBLK (s : State) (w : Vector Word 64) : (s.setW w).NBLK = s.NBLK := rfl
@[simp] theorem setW_blk (s : State) (w : Vector Word 64) : (s.setW w).blk = s.blk := rfl
@[simp] theorem setW_seq (s : State) (w : Vector Word 64) : (s.setW w).seq = s.seq := rfl
@[simp] theorem setW_BUSY (s : State) (w : Vector Word 64) : (s.setW w).BUSY = s.BUSY := rfl
@[simp] theorem setW_DONE (s : State) (w : Vector Word 64) : (s.setW w).DONE = s.DONE := rfl
@[simp] theorem setW_ERR (s : State) (w : Vector Word 64) : (s.setW w).ERR = s.ERR := rfl
@[simp] theorem setW_CAUSE (s : State) (w : Vector Word 64) : (s.setW w).CAUSE = s.CAUSE := rfl
@[simp] theorem setW_MLEN (s : State) (w : Vector Word 64) : (s.setW w).MLEN = s.MLEN := rfl
@[simp] theorem setW_MSG (s : State) (w : Vector Word 64) : (s.setW w).MSG = s.MSG := rfl
@[simp] theorem setW_MSG_BYTES (s : State) (w : Vector Word 64) : (s.setW w).MSG_BYTES = s.MSG_BYTES := rfl
@[simp] theorem setW_inputs (s : State) (w : Vector Word 64) : (s.setW w).inputs = s.inputs := rfl
@[simp] theorem setW_outputs (s : State) (w : Vector Word 64) : (s.setW w).outputs = s.outputs := rfl
@[simp] theorem setW_freeCtr (s : State) (w : Vector Word 64) : (s.setW w).freeCtr = s.freeCtr := rfl

/-! setBlocks -/

@[simp] theorem setBlocks_H (s : State) (n b : BitVec 56) : (s.setBlocks n b).H = s.H := rfl
@[simp] theorem setBlocks_V (s : State) (n b : BitVec 56) : (s.setBlocks n b).V = s.V := rfl
@[simp] theorem setBlocks_W (s : State) (n b : BitVec 56) : (s.setBlocks n b).W = s.W := rfl
@[simp] theorem setBlocks_LEN (s : State) (n b : BitVec 56) : (s.setBlocks n b).LEN = s.LEN := rfl
@[simp] theorem setBlocks_NBLK (s : State) (n b : BitVec 56) : (s.setBlocks n b).NBLK = n := rfl
@[simp] theorem setBlocks_blk (s : State) (n b : BitVec 56) : (s.setBlocks n b).blk = b := rfl
@[simp] theorem setBlocks_seq (s : State) (n b : BitVec 56) : (s.setBlocks n b).seq = s.seq := rfl
@[simp] theorem setBlocks_BUSY (s : State) (n b : BitVec 56) : (s.setBlocks n b).BUSY = s.BUSY := rfl
@[simp] theorem setBlocks_DONE (s : State) (n b : BitVec 56) : (s.setBlocks n b).DONE = s.DONE := rfl
@[simp] theorem setBlocks_ERR (s : State) (n b : BitVec 56) : (s.setBlocks n b).ERR = s.ERR := rfl
@[simp] theorem setBlocks_CAUSE (s : State) (n b : BitVec 56) : (s.setBlocks n b).CAUSE = s.CAUSE := rfl
@[simp] theorem setBlocks_MLEN (s : State) (n b : BitVec 56) : (s.setBlocks n b).MLEN = s.MLEN := rfl
@[simp] theorem setBlocks_MSG (s : State) (n b : BitVec 56) : (s.setBlocks n b).MSG = s.MSG := rfl
@[simp] theorem setBlocks_MSG_BYTES (s : State) (n b : BitVec 56) : (s.setBlocks n b).MSG_BYTES = s.MSG_BYTES := rfl
@[simp] theorem setBlocks_inputs (s : State) (n b : BitVec 56) : (s.setBlocks n b).inputs = s.inputs := rfl
@[simp] theorem setBlocks_outputs (s : State) (n b : BitVec 56) : (s.setBlocks n b).outputs = s.outputs := rfl
@[simp] theorem setBlocks_freeCtr (s : State) (n b : BitVec 56) : (s.setBlocks n b).freeCtr = s.freeCtr := rfl

/-! setBlk -/

@[simp] theorem setBlk_H (s : State) (b : BitVec 56) : (s.setBlk b).H = s.H := rfl
@[simp] theorem setBlk_V (s : State) (b : BitVec 56) : (s.setBlk b).V = s.V := rfl
@[simp] theorem setBlk_W (s : State) (b : BitVec 56) : (s.setBlk b).W = s.W := rfl
@[simp] theorem setBlk_LEN (s : State) (b : BitVec 56) : (s.setBlk b).LEN = s.LEN := rfl
@[simp] theorem setBlk_NBLK (s : State) (b : BitVec 56) : (s.setBlk b).NBLK = s.NBLK := rfl
@[simp] theorem setBlk_blk (s : State) (b : BitVec 56) : (s.setBlk b).blk = b := rfl
@[simp] theorem setBlk_seq (s : State) (b : BitVec 56) : (s.setBlk b).seq = s.seq := rfl
@[simp] theorem setBlk_BUSY (s : State) (b : BitVec 56) : (s.setBlk b).BUSY = s.BUSY := rfl
@[simp] theorem setBlk_DONE (s : State) (b : BitVec 56) : (s.setBlk b).DONE = s.DONE := rfl
@[simp] theorem setBlk_ERR (s : State) (b : BitVec 56) : (s.setBlk b).ERR = s.ERR := rfl
@[simp] theorem setBlk_CAUSE (s : State) (b : BitVec 56) : (s.setBlk b).CAUSE = s.CAUSE := rfl
@[simp] theorem setBlk_MLEN (s : State) (b : BitVec 56) : (s.setBlk b).MLEN = s.MLEN := rfl
@[simp] theorem setBlk_MSG (s : State) (b : BitVec 56) : (s.setBlk b).MSG = s.MSG := rfl
@[simp] theorem setBlk_MSG_BYTES (s : State) (b : BitVec 56) : (s.setBlk b).MSG_BYTES = s.MSG_BYTES := rfl
@[simp] theorem setBlk_inputs (s : State) (b : BitVec 56) : (s.setBlk b).inputs = s.inputs := rfl
@[simp] theorem setBlk_outputs (s : State) (b : BitVec 56) : (s.setBlk b).outputs = s.outputs := rfl
@[simp] theorem setBlk_freeCtr (s : State) (b : BitVec 56) : (s.setBlk b).freeCtr = s.freeCtr := rfl

/-! setLEN -/

@[simp] theorem setLEN_H (s : State) (n : BitVec 64) : (s.setLEN n).H = s.H := rfl
@[simp] theorem setLEN_V (s : State) (n : BitVec 64) : (s.setLEN n).V = s.V := rfl
@[simp] theorem setLEN_W (s : State) (n : BitVec 64) : (s.setLEN n).W = s.W := rfl
@[simp] theorem setLEN_LEN (s : State) (n : BitVec 64) : (s.setLEN n).LEN = n := rfl
@[simp] theorem setLEN_NBLK (s : State) (n : BitVec 64) : (s.setLEN n).NBLK = s.NBLK := rfl
@[simp] theorem setLEN_blk (s : State) (n : BitVec 64) : (s.setLEN n).blk = s.blk := rfl
@[simp] theorem setLEN_seq (s : State) (n : BitVec 64) : (s.setLEN n).seq = s.seq := rfl
@[simp] theorem setLEN_BUSY (s : State) (n : BitVec 64) : (s.setLEN n).BUSY = s.BUSY := rfl
@[simp] theorem setLEN_DONE (s : State) (n : BitVec 64) : (s.setLEN n).DONE = s.DONE := rfl
@[simp] theorem setLEN_ERR (s : State) (n : BitVec 64) : (s.setLEN n).ERR = s.ERR := rfl
@[simp] theorem setLEN_CAUSE (s : State) (n : BitVec 64) : (s.setLEN n).CAUSE = s.CAUSE := rfl
@[simp] theorem setLEN_MLEN (s : State) (n : BitVec 64) : (s.setLEN n).MLEN = s.MLEN := rfl
@[simp] theorem setLEN_MSG (s : State) (n : BitVec 64) : (s.setLEN n).MSG = s.MSG := rfl
@[simp] theorem setLEN_MSG_BYTES (s : State) (n : BitVec 64) : (s.setLEN n).MSG_BYTES = s.MSG_BYTES := rfl
@[simp] theorem setLEN_inputs (s : State) (n : BitVec 64) : (s.setLEN n).inputs = s.inputs := rfl
@[simp] theorem setLEN_outputs (s : State) (n : BitVec 64) : (s.setLEN n).outputs = s.outputs := rfl
@[simp] theorem setLEN_freeCtr (s : State) (n : BitVec 64) : (s.setLEN n).freeCtr = s.freeCtr := rfl

/-! setMLEN -/

@[simp] theorem setMLEN_H (s : State) (n : BitVec 64) : (s.setMLEN n).H = s.H := rfl
@[simp] theorem setMLEN_V (s : State) (n : BitVec 64) : (s.setMLEN n).V = s.V := rfl
@[simp] theorem setMLEN_W (s : State) (n : BitVec 64) : (s.setMLEN n).W = s.W := rfl
@[simp] theorem setMLEN_LEN (s : State) (n : BitVec 64) : (s.setMLEN n).LEN = s.LEN := rfl
@[simp] theorem setMLEN_NBLK (s : State) (n : BitVec 64) : (s.setMLEN n).NBLK = s.NBLK := rfl
@[simp] theorem setMLEN_blk (s : State) (n : BitVec 64) : (s.setMLEN n).blk = s.blk := rfl
@[simp] theorem setMLEN_seq (s : State) (n : BitVec 64) : (s.setMLEN n).seq = s.seq := rfl
@[simp] theorem setMLEN_BUSY (s : State) (n : BitVec 64) : (s.setMLEN n).BUSY = s.BUSY := rfl
@[simp] theorem setMLEN_DONE (s : State) (n : BitVec 64) : (s.setMLEN n).DONE = s.DONE := rfl
@[simp] theorem setMLEN_ERR (s : State) (n : BitVec 64) : (s.setMLEN n).ERR = s.ERR := rfl
@[simp] theorem setMLEN_CAUSE (s : State) (n : BitVec 64) : (s.setMLEN n).CAUSE = s.CAUSE := rfl
@[simp] theorem setMLEN_MLEN (s : State) (n : BitVec 64) : (s.setMLEN n).MLEN = n := rfl
@[simp] theorem setMLEN_MSG (s : State) (n : BitVec 64) : (s.setMLEN n).MSG = s.MSG := rfl
@[simp] theorem setMLEN_MSG_BYTES (s : State) (n : BitVec 64) : (s.setMLEN n).MSG_BYTES = s.MSG_BYTES := rfl
@[simp] theorem setMLEN_inputs (s : State) (n : BitVec 64) : (s.setMLEN n).inputs = s.inputs := rfl
@[simp] theorem setMLEN_outputs (s : State) (n : BitVec 64) : (s.setMLEN n).outputs = s.outputs := rfl
@[simp] theorem setMLEN_freeCtr (s : State) (n : BitVec 64) : (s.setMLEN n).freeCtr = s.freeCtr := rfl

/-! storeByte -/

@[simp] theorem storeByte_H (s : State) (a : Nat) (b : Byte) : (s.storeByte a b).H = s.H := rfl
@[simp] theorem storeByte_V (s : State) (a : Nat) (b : Byte) : (s.storeByte a b).V = s.V := rfl
@[simp] theorem storeByte_W (s : State) (a : Nat) (b : Byte) : (s.storeByte a b).W = s.W := rfl
@[simp] theorem storeByte_LEN (s : State) (a : Nat) (b : Byte) : (s.storeByte a b).LEN = s.LEN := rfl
@[simp] theorem storeByte_NBLK (s : State) (a : Nat) (b : Byte) : (s.storeByte a b).NBLK = s.NBLK := rfl
@[simp] theorem storeByte_blk (s : State) (a : Nat) (b : Byte) : (s.storeByte a b).blk = s.blk := rfl
@[simp] theorem storeByte_seq (s : State) (a : Nat) (b : Byte) : (s.storeByte a b).seq = s.seq := rfl
@[simp] theorem storeByte_BUSY (s : State) (a : Nat) (b : Byte) : (s.storeByte a b).BUSY = s.BUSY := rfl
@[simp] theorem storeByte_DONE (s : State) (a : Nat) (b : Byte) : (s.storeByte a b).DONE = s.DONE := rfl
@[simp] theorem storeByte_ERR (s : State) (a : Nat) (b : Byte) : (s.storeByte a b).ERR = s.ERR := rfl
@[simp] theorem storeByte_CAUSE (s : State) (a : Nat) (b : Byte) : (s.storeByte a b).CAUSE = s.CAUSE := rfl
@[simp] theorem storeByte_MLEN (s : State) (a : Nat) (b : Byte) : (s.storeByte a b).MLEN = s.MLEN := rfl
@[simp] theorem storeByte_MSG (s : State) (a : Nat) (b : Byte) : (s.storeByte a b).MSG = s.MSG.write a b := rfl
@[simp] theorem storeByte_MSG_BYTES (s : State) (a : Nat) (b : Byte) : (s.storeByte a b).MSG_BYTES = s.MSG_BYTES := rfl
@[simp] theorem storeByte_inputs (s : State) (a : Nat) (b : Byte) : (s.storeByte a b).inputs = s.inputs := rfl
@[simp] theorem storeByte_outputs (s : State) (a : Nat) (b : Byte) : (s.storeByte a b).outputs = s.outputs := rfl
@[simp] theorem storeByte_freeCtr (s : State) (a : Nat) (b : Byte) : (s.storeByte a b).freeCtr = s.freeCtr := rfl

/-! respond -/

@[simp] theorem respond_H (s : State) (r : Response) : (s.respond r).H = s.H := rfl
@[simp] theorem respond_V (s : State) (r : Response) : (s.respond r).V = s.V := rfl
@[simp] theorem respond_W (s : State) (r : Response) : (s.respond r).W = s.W := rfl
@[simp] theorem respond_LEN (s : State) (r : Response) : (s.respond r).LEN = s.LEN := rfl
@[simp] theorem respond_NBLK (s : State) (r : Response) : (s.respond r).NBLK = s.NBLK := rfl
@[simp] theorem respond_blk (s : State) (r : Response) : (s.respond r).blk = s.blk := rfl
@[simp] theorem respond_seq (s : State) (r : Response) : (s.respond r).seq = s.seq := rfl
@[simp] theorem respond_BUSY (s : State) (r : Response) : (s.respond r).BUSY = s.BUSY := rfl
@[simp] theorem respond_DONE (s : State) (r : Response) : (s.respond r).DONE = s.DONE := rfl
@[simp] theorem respond_ERR (s : State) (r : Response) : (s.respond r).ERR = s.ERR := rfl
@[simp] theorem respond_CAUSE (s : State) (r : Response) : (s.respond r).CAUSE = s.CAUSE := rfl
@[simp] theorem respond_MLEN (s : State) (r : Response) : (s.respond r).MLEN = s.MLEN := rfl
@[simp] theorem respond_MSG (s : State) (r : Response) : (s.respond r).MSG = s.MSG := rfl
@[simp] theorem respond_MSG_BYTES (s : State) (r : Response) : (s.respond r).MSG_BYTES = s.MSG_BYTES := rfl
@[simp] theorem respond_inputs (s : State) (r : Response) : (s.respond r).inputs = s.inputs := rfl
@[simp] theorem respond_outputs (s : State) (r : Response) : (s.respond r).outputs = r :: s.outputs := rfl
@[simp] theorem respond_freeCtr (s : State) (r : Response) : (s.respond r).freeCtr = s.freeCtr := rfl

/-! respondFree -/

@[simp] theorem respondFree_H (s : State) : s.respondFree.H = s.H := rfl
@[simp] theorem respondFree_V (s : State) : s.respondFree.V = s.V := rfl
@[simp] theorem respondFree_W (s : State) : s.respondFree.W = s.W := rfl
@[simp] theorem respondFree_LEN (s : State) : s.respondFree.LEN = s.LEN := rfl
@[simp] theorem respondFree_NBLK (s : State) : s.respondFree.NBLK = s.NBLK := rfl
@[simp] theorem respondFree_blk (s : State) : s.respondFree.blk = s.blk := rfl
@[simp] theorem respondFree_seq (s : State) : s.respondFree.seq = s.seq := rfl
@[simp] theorem respondFree_BUSY (s : State) : s.respondFree.BUSY = s.BUSY := rfl
@[simp] theorem respondFree_DONE (s : State) : s.respondFree.DONE = s.DONE := rfl
@[simp] theorem respondFree_ERR (s : State) : s.respondFree.ERR = s.ERR := rfl
@[simp] theorem respondFree_CAUSE (s : State) : s.respondFree.CAUSE = s.CAUSE := rfl
@[simp] theorem respondFree_MLEN (s : State) : s.respondFree.MLEN = s.MLEN := rfl
@[simp] theorem respondFree_MSG (s : State) : s.respondFree.MSG = s.MSG := rfl
@[simp] theorem respondFree_MSG_BYTES (s : State) : s.respondFree.MSG_BYTES = s.MSG_BYTES := rfl
@[simp] theorem respondFree_inputs (s : State) : s.respondFree.inputs = s.inputs := rfl
@[simp] theorem respondFree_outputs (s : State) : s.respondFree.outputs = .word (Config.freeRead s.freeCtr) :: s.outputs := rfl
@[simp] theorem respondFree_freeCtr (s : State) : s.respondFree.freeCtr = s.freeCtr + 1 := rfl

/-! flagsStarted -/

@[simp] theorem flagsStarted_H (s : State) : s.flagsStarted.H = s.H := rfl
@[simp] theorem flagsStarted_V (s : State) : s.flagsStarted.V = s.V := rfl
@[simp] theorem flagsStarted_W (s : State) : s.flagsStarted.W = s.W := rfl
@[simp] theorem flagsStarted_LEN (s : State) : s.flagsStarted.LEN = s.LEN := rfl
@[simp] theorem flagsStarted_NBLK (s : State) : s.flagsStarted.NBLK = s.NBLK := rfl
@[simp] theorem flagsStarted_blk (s : State) : s.flagsStarted.blk = s.blk := rfl
@[simp] theorem flagsStarted_seq (s : State) : s.flagsStarted.seq = s.seq := rfl
@[simp] theorem flagsStarted_BUSY (s : State) : s.flagsStarted.BUSY = true := rfl
@[simp] theorem flagsStarted_DONE (s : State) : s.flagsStarted.DONE = false := rfl
@[simp] theorem flagsStarted_ERR (s : State) : s.flagsStarted.ERR = false := rfl
@[simp] theorem flagsStarted_CAUSE (s : State) : s.flagsStarted.CAUSE = 0 := rfl
@[simp] theorem flagsStarted_MLEN (s : State) : s.flagsStarted.MLEN = s.MLEN := rfl
@[simp] theorem flagsStarted_MSG (s : State) : s.flagsStarted.MSG = s.MSG := rfl
@[simp] theorem flagsStarted_MSG_BYTES (s : State) : s.flagsStarted.MSG_BYTES = s.MSG_BYTES := rfl
@[simp] theorem flagsStarted_inputs (s : State) : s.flagsStarted.inputs = s.inputs := rfl
@[simp] theorem flagsStarted_outputs (s : State) : s.flagsStarted.outputs = s.outputs := rfl
@[simp] theorem flagsStarted_freeCtr (s : State) : s.flagsStarted.freeCtr = s.freeCtr := rfl

/-! flagsFailed -/

@[simp] theorem flagsFailed_H (s : State) : s.flagsFailed.H = s.H := rfl
@[simp] theorem flagsFailed_V (s : State) : s.flagsFailed.V = s.V := rfl
@[simp] theorem flagsFailed_W (s : State) : s.flagsFailed.W = s.W := rfl
@[simp] theorem flagsFailed_LEN (s : State) : s.flagsFailed.LEN = s.LEN := rfl
@[simp] theorem flagsFailed_NBLK (s : State) : s.flagsFailed.NBLK = s.NBLK := rfl
@[simp] theorem flagsFailed_blk (s : State) : s.flagsFailed.blk = s.blk := rfl
@[simp] theorem flagsFailed_seq (s : State) : s.flagsFailed.seq = s.seq := rfl
@[simp] theorem flagsFailed_BUSY (s : State) : s.flagsFailed.BUSY = false := rfl
@[simp] theorem flagsFailed_DONE (s : State) : s.flagsFailed.DONE = false := rfl
@[simp] theorem flagsFailed_ERR (s : State) : s.flagsFailed.ERR = true := rfl
@[simp] theorem flagsFailed_CAUSE (s : State) : s.flagsFailed.CAUSE = 1 := rfl
@[simp] theorem flagsFailed_MLEN (s : State) : s.flagsFailed.MLEN = s.MLEN := rfl
@[simp] theorem flagsFailed_MSG (s : State) : s.flagsFailed.MSG = s.MSG := rfl
@[simp] theorem flagsFailed_MSG_BYTES (s : State) : s.flagsFailed.MSG_BYTES = s.MSG_BYTES := rfl
@[simp] theorem flagsFailed_inputs (s : State) : s.flagsFailed.inputs = s.inputs := rfl
@[simp] theorem flagsFailed_outputs (s : State) : s.flagsFailed.outputs = s.outputs := rfl
@[simp] theorem flagsFailed_freeCtr (s : State) : s.flagsFailed.freeCtr = s.freeCtr := rfl

/-! flagsFinished -/

@[simp] theorem flagsFinished_H (s : State) : s.flagsFinished.H = s.H := rfl
@[simp] theorem flagsFinished_V (s : State) : s.flagsFinished.V = s.V := rfl
@[simp] theorem flagsFinished_W (s : State) : s.flagsFinished.W = s.W := rfl
@[simp] theorem flagsFinished_LEN (s : State) : s.flagsFinished.LEN = s.LEN := rfl
@[simp] theorem flagsFinished_NBLK (s : State) : s.flagsFinished.NBLK = s.NBLK := rfl
@[simp] theorem flagsFinished_blk (s : State) : s.flagsFinished.blk = s.blk := rfl
@[simp] theorem flagsFinished_seq (s : State) : s.flagsFinished.seq = s.seq := rfl
@[simp] theorem flagsFinished_BUSY (s : State) : s.flagsFinished.BUSY = false := rfl
@[simp] theorem flagsFinished_DONE (s : State) : s.flagsFinished.DONE = true := rfl
@[simp] theorem flagsFinished_ERR (s : State) : s.flagsFinished.ERR = s.ERR := rfl
@[simp] theorem flagsFinished_CAUSE (s : State) : s.flagsFinished.CAUSE = s.CAUSE := rfl
@[simp] theorem flagsFinished_MLEN (s : State) : s.flagsFinished.MLEN = s.MLEN := rfl
@[simp] theorem flagsFinished_MSG (s : State) : s.flagsFinished.MSG = s.MSG := rfl
@[simp] theorem flagsFinished_MSG_BYTES (s : State) : s.flagsFinished.MSG_BYTES = s.MSG_BYTES := rfl
@[simp] theorem flagsFinished_inputs (s : State) : s.flagsFinished.inputs = s.inputs := rfl
@[simp] theorem flagsFinished_outputs (s : State) : s.flagsFinished.outputs = s.outputs := rfl
@[simp] theorem flagsFinished_freeCtr (s : State) : s.flagsFinished.freeCtr = s.freeCtr := rfl

/-! raiseInputOverflow -/

@[simp] theorem raiseInputOverflow_H (s : State) : s.raiseInputOverflow.H = s.H := rfl
@[simp] theorem raiseInputOverflow_V (s : State) : s.raiseInputOverflow.V = s.V := rfl
@[simp] theorem raiseInputOverflow_W (s : State) : s.raiseInputOverflow.W = s.W := rfl
@[simp] theorem raiseInputOverflow_LEN (s : State) : s.raiseInputOverflow.LEN = s.LEN := rfl
@[simp] theorem raiseInputOverflow_NBLK (s : State) : s.raiseInputOverflow.NBLK = s.NBLK := rfl
@[simp] theorem raiseInputOverflow_blk (s : State) : s.raiseInputOverflow.blk = s.blk := rfl
@[simp] theorem raiseInputOverflow_seq (s : State) : s.raiseInputOverflow.seq = seqWord .idle 0 := rfl
@[simp] theorem raiseInputOverflow_BUSY (s : State) : s.raiseInputOverflow.BUSY = false := rfl
@[simp] theorem raiseInputOverflow_DONE (s : State) : s.raiseInputOverflow.DONE = false := rfl
@[simp] theorem raiseInputOverflow_ERR (s : State) : s.raiseInputOverflow.ERR = true := rfl
@[simp] theorem raiseInputOverflow_CAUSE (s : State) : s.raiseInputOverflow.CAUSE = 1 := rfl
@[simp] theorem raiseInputOverflow_MLEN (s : State) : s.raiseInputOverflow.MLEN = s.MLEN := rfl
@[simp] theorem raiseInputOverflow_MSG (s : State) : s.raiseInputOverflow.MSG = s.MSG := rfl
@[simp] theorem raiseInputOverflow_MSG_BYTES (s : State) : s.raiseInputOverflow.MSG_BYTES = s.MSG_BYTES := rfl
@[simp] theorem raiseInputOverflow_inputs (s : State) : s.raiseInputOverflow.inputs = s.inputs := rfl
@[simp] theorem raiseInputOverflow_outputs (s : State) : s.raiseInputOverflow.outputs = s.outputs := rfl
@[simp] theorem raiseInputOverflow_freeCtr (s : State) : s.raiseInputOverflow.freeCtr = s.freeCtr := rfl

/-! acceptStart -/

@[simp] theorem acceptStart_H (s : State) : s.acceptStart.H = s.H := rfl
@[simp] theorem acceptStart_V (s : State) : s.acceptStart.V = s.V := rfl
@[simp] theorem acceptStart_W (s : State) : s.acceptStart.W = s.W := rfl
@[simp] theorem acceptStart_LEN (s : State) : s.acceptStart.LEN = s.MLEN := rfl
@[simp] theorem acceptStart_NBLK (s : State) : s.acceptStart.NBLK = s.NBLK := rfl
@[simp] theorem acceptStart_blk (s : State) : s.acceptStart.blk = s.blk := rfl
@[simp] theorem acceptStart_seq (s : State) : s.acceptStart.seq = seqWord .pad 0 := rfl
@[simp] theorem acceptStart_BUSY (s : State) : s.acceptStart.BUSY = true := rfl
@[simp] theorem acceptStart_DONE (s : State) : s.acceptStart.DONE = false := rfl
@[simp] theorem acceptStart_ERR (s : State) : s.acceptStart.ERR = false := rfl
@[simp] theorem acceptStart_CAUSE (s : State) : s.acceptStart.CAUSE = 0 := rfl
@[simp] theorem acceptStart_MLEN (s : State) : s.acceptStart.MLEN = s.MLEN := rfl
@[simp] theorem acceptStart_MSG (s : State) : s.acceptStart.MSG = s.MSG := rfl
@[simp] theorem acceptStart_MSG_BYTES (s : State) : s.acceptStart.MSG_BYTES = s.MSG_BYTES := rfl
@[simp] theorem acceptStart_inputs (s : State) : s.acceptStart.inputs = s.inputs := rfl
@[simp] theorem acceptStart_outputs (s : State) : s.acceptStart.outputs = s.outputs := rfl
@[simp] theorem acceptStart_freeCtr (s : State) : s.acceptStart.freeCtr = s.freeCtr := rfl

/-! dropInput -/

@[simp] theorem dropInput_H (s : State) : s.dropInput.H = s.H := rfl
@[simp] theorem dropInput_V (s : State) : s.dropInput.V = s.V := rfl
@[simp] theorem dropInput_W (s : State) : s.dropInput.W = s.W := rfl
@[simp] theorem dropInput_LEN (s : State) : s.dropInput.LEN = s.LEN := rfl
@[simp] theorem dropInput_NBLK (s : State) : s.dropInput.NBLK = s.NBLK := rfl
@[simp] theorem dropInput_blk (s : State) : s.dropInput.blk = s.blk := rfl
@[simp] theorem dropInput_seq (s : State) : s.dropInput.seq = s.seq := rfl
@[simp] theorem dropInput_BUSY (s : State) : s.dropInput.BUSY = s.BUSY := rfl
@[simp] theorem dropInput_DONE (s : State) : s.dropInput.DONE = s.DONE := rfl
@[simp] theorem dropInput_ERR (s : State) : s.dropInput.ERR = s.ERR := rfl
@[simp] theorem dropInput_CAUSE (s : State) : s.dropInput.CAUSE = s.CAUSE := rfl
@[simp] theorem dropInput_MLEN (s : State) : s.dropInput.MLEN = s.MLEN := rfl
@[simp] theorem dropInput_MSG (s : State) : s.dropInput.MSG = s.MSG := rfl
@[simp] theorem dropInput_MSG_BYTES (s : State) : s.dropInput.MSG_BYTES = s.MSG_BYTES := rfl
@[simp] theorem dropInput_inputs (s : State) : s.dropInput.inputs = s.inputs.tail := rfl
@[simp] theorem dropInput_outputs (s : State) : s.dropInput.outputs = s.outputs := rfl
@[simp] theorem dropInput_freeCtr (s : State) : s.dropInput.freeCtr = s.freeCtr := rfl

/-! resetEvent -/

@[simp] theorem resetEvent_H (s : State) : s.resetEvent.H = State.reset.H := rfl
@[simp] theorem resetEvent_V (s : State) : s.resetEvent.V = State.reset.V := rfl
@[simp] theorem resetEvent_W (s : State) : s.resetEvent.W = State.reset.W := rfl
@[simp] theorem resetEvent_LEN (s : State) : s.resetEvent.LEN = State.reset.LEN := rfl
@[simp] theorem resetEvent_NBLK (s : State) : s.resetEvent.NBLK = State.reset.NBLK := rfl
@[simp] theorem resetEvent_blk (s : State) : s.resetEvent.blk = State.reset.blk := rfl
@[simp] theorem resetEvent_seq (s : State) : s.resetEvent.seq = State.reset.seq := rfl
@[simp] theorem resetEvent_BUSY (s : State) : s.resetEvent.BUSY = State.reset.BUSY := rfl
@[simp] theorem resetEvent_DONE (s : State) : s.resetEvent.DONE = State.reset.DONE := rfl
@[simp] theorem resetEvent_ERR (s : State) : s.resetEvent.ERR = State.reset.ERR := rfl
@[simp] theorem resetEvent_CAUSE (s : State) : s.resetEvent.CAUSE = State.reset.CAUSE := rfl
@[simp] theorem resetEvent_MLEN (s : State) : s.resetEvent.MLEN = State.reset.MLEN := rfl
@[simp] theorem resetEvent_MSG (s : State) : s.resetEvent.MSG = State.reset.MSG := rfl
@[simp] theorem resetEvent_MSG_BYTES (s : State) : s.resetEvent.MSG_BYTES = s.MSG_BYTES := rfl
@[simp] theorem resetEvent_inputs (s : State) : s.resetEvent.inputs = s.inputs := rfl
@[simp] theorem resetEvent_outputs (s : State) : s.resetEvent.outputs = s.outputs := rfl
@[simp] theorem resetEvent_freeCtr (s : State) : s.resetEvent.freeCtr = s.freeCtr := rfl

end Sys2Proof.Machine
end

