-- ==== Sys2Proof/Laws/Ops.lean ====
section
/-! SUPPORT. One lemma per operation: everything it can do when it answers a next state (guards included), and that no
operation touches MSG_BYTES or the inputs. -/

namespace Sys2Proof.Machine

/-! The Message depends on LEN and MSG only, which these updates leave alone. -/

@[simp] theorem goto_message (s : State) (p : Phase) (i : Fin 64) : (s.goto p i).message = s.message := rfl
@[simp] theorem setH_message (s : State) (h : Vector Word 8) : (s.setH h).message = s.message := rfl
@[simp] theorem setV_message (s : State) (v : Work) : (s.setV v).message = s.message := rfl
@[simp] theorem setW_message (s : State) (w : Vector Word 64) : (s.setW w).message = s.message := rfl
@[simp] theorem setBlocks_message (s : State) (n b : BitVec 56) : (s.setBlocks n b).message = s.message := rfl
@[simp] theorem setBlk_message (s : State) (b : BitVec 56) : (s.setBlk b).message = s.message := rfl
@[simp] theorem setMLEN_message (s : State) (n : BitVec 64) : (s.setMLEN n).message = s.message := rfl
@[simp] theorem respond_message (s : State) (r : Response) : (s.respond r).message = s.message := rfl
@[simp] theorem respondFree_message (s : State) : s.respondFree.message = s.message := rfl
@[simp] theorem flagsFinished_message (s : State) : s.flagsFinished.message = s.message := rfl
@[simp] theorem raiseInputOverflow_message (s : State) : s.raiseInputOverflow.message = s.message := rfl
@[simp] theorem dropInput_message (s : State) : s.dropInput.message = s.message := rfl

/-! The arms of exec, one equation each, so that no proof unfolds exec. -/

@[simp] theorem exec_pad (s : State) : exec .pad s = execPad s := rfl
@[simp] theorem exec_init (s : State) : exec .init s = execInit s := rfl
@[simp] theorem exec_ldblk (s : State) : exec .ldblk s = execLdblk s := rfl
@[simp] theorem exec_expand (k : Fin 64) (s : State) : exec (.expand k) s = execExpand k s := rfl
@[simp] theorem exec_ldwork (s : State) : exec .ldwork s = execLdwork s := rfl
@[simp] theorem exec_round (k : Fin 64) (s : State) : exec (.round k) s = execRound k s := rfl
@[simp] theorem exec_feedfwd (s : State) : exec .feedfwd s = execFeedfwd s := rfl
@[simp] theorem exec_finish (s : State) : exec .finish s = execFinish s := rfl
@[simp] theorem exec_start (s : State) : exec .start s = execStart s := rfl
@[simp] theorem exec_nop (s : State) : exec .nop s = execNop s := rfl
@[simp] theorem exec_rsvdctrl (d : Word) (s : State) : exec (.rsvdctrl d) s = execRsvdctrl d s := rfl
@[simp] theorem exec_rdctrl (s : State) : exec .rdctrl s = execRdctrl s := rfl
@[simp] theorem exec_rdstatus (s : State) : exec .rdstatus s = execRdstatus s := rfl
@[simp] theorem exec_wrstatus (d : Word) (s : State) : exec (.wrstatus d) s = execWrstatus d s := rfl
@[simp] theorem exec_rdmlenlo (s : State) : exec .rdmlenlo s = execRdmlenlo s := rfl
@[simp] theorem exec_wrmlenlo (d : Word) (s : State) : exec (.wrmlenlo d) s = execWrmlenlo d s := rfl
@[simp] theorem exec_rdmlenhi (s : State) : exec .rdmlenhi s = execRdmlenhi s := rfl
@[simp] theorem exec_wrmlenhi (d : Word) (s : State) : exec (.wrmlenhi d) s = execWrmlenhi d s := rfl
@[simp] theorem exec_rdrsvd (r : Fin 4) (s : State) : exec (.rdrsvd r) s = execRdrsvd r s := rfl
@[simp] theorem exec_wrrsvd (r : Fin 4) (d : Word) (s : State) : exec (.wrrsvd r d) s = execWrrsvd r d s := rfl
@[simp] theorem exec_rddigest (j : Fin 8) (s : State) : exec (.rddigest j) s = execRddigest j s := rfl
@[simp] theorem exec_wrdigest (j : Fin 8) (d : Word) (s : State) : exec (.wrdigest j d) s = execWrdigest j d s := rfl
@[simp] theorem exec_rddhex (q : Fin 16) (s : State) : exec (.rddhex q) s = execRddhex q s := rfl
@[simp] theorem exec_wrdhex (q : Fin 16) (d : Word) (s : State) : exec (.wrdhex q d) s = execWrdhex q d s := rfl
@[simp] theorem exec_msgwr (a : BitVec 61) (b : Byte) (s : State) : exec (.msgwr a b) s = execMsgwr a b s := rfl
@[simp] theorem exec_msgrd (a : BitVec 61) (s : State) : exec (.msgrd a) s = execMsgrd a s := rfl

theorem isIdle_iff (s : State) : s.isIdle = true ↔ s.seq = seqWord .idle 0 := by
  simp [State.isIdle]

/-- PAD: the exception when the length overflows, else the block registers (R120). -/
theorem execPad_cases {s t : State} (h : execPad s = .next t) :
    (2 ^ 61 ≤ s.LEN.toNat ∧ t = s.raiseInputOverflow) ∨
    (s.LEN.toNat < 2 ^ 61 ∧ t = (s.setBlocks (blockCount s.LEN) 0).goto .init 0) := by
  unfold execPad at h
  split at h
  · exact .inl ⟨(lengthOverflows_iff _).mp ‹_›, by simpa using h.symm⟩
  · rename_i hn
    rw [lengthOverflows_iff] at hn
    exact .inr ⟨by omega, by simpa using h.symm⟩

theorem execPad_overflow {s : State} (h : 2 ^ 61 ≤ s.LEN.toNat) : execPad s = .next s.raiseInputOverflow := by
  rw [execPad, if_pos ((lengthOverflows_iff _).mpr h)]

theorem execPad_accept {s : State} (h : s.LEN.toNat < 2 ^ 61) :
    execPad s = .next ((s.setBlocks (blockCount s.LEN) 0).goto .init 0) := by
  rw [execPad, if_neg]
  rw [lengthOverflows_iff]
  omega

/-- LDBLK answers a next state only where its block can be loaded (R142). -/
theorem execLdblk_cases {s t : State} (h : execLdblk s = .next t) :
    s.BlockReady ∧ t = (s.setW (loadedSchedule s)).goto .expand 16 := by
  unfold execLdblk at h
  split at h
  · simp at h
  · exact ⟨blockStop_eq_none.mp ‹_›, by simpa using h.symm⟩

theorem execLdblk_ready {s : State} (h : s.BlockReady) :
    execLdblk s = .next ((s.setW (loadedSchedule s)).goto .expand 16) := by
  simp [execLdblk, blockStop_eq_none.mpr h]

/-- EXPAND: its word, then the next index or LDWORK (R143). -/
theorem execExpand_cases {i : Fin 64} {s t : State} (h : execExpand i s = .next t) :
    ∃ (hi : 16 ≤ i.val) (w : Word),
      w = expandWord (s.W[i.val - 2]'(by omega)) (s.W[i.val - 7]'(by omega)) (s.W[i.val - 15]'(by omega))
        (s.W[i.val - 16]'(by omega)) ∧
      ((∃ j : Fin 64, j.val = i.val + 1 ∧ t = (s.setW (s.W.set i.val w)).goto .expand j) ∨
        (i.val = 63 ∧ t = (s.setW (s.W.set i.val w)).goto .ldwork 0)) := by
  unfold execExpand at h
  split at h
  · rename_i hi
    refine ⟨hi, _, rfl, ?_⟩
    dsimp only at h
    split at h
    · exact .inl ⟨⟨i.val + 1, by omega⟩, rfl, by simpa using h.symm⟩
    · exact .inr ⟨by omega, by simpa using h.symm⟩
  · simp at h

/-- ROUND: one round, then the next index or FEEDFWD (R161). -/
theorem execRound_cases {i : Fin 64} {s t : State} (h : execRound i s = .next t) :
    (∃ j : Fin 64, j.val = i.val + 1 ∧ t = (s.setV (roundStep roundK[i] s.W[i] s.V)).goto .round j) ∨
    (i.val = 63 ∧ t = (s.setV (roundStep roundK[i] s.W[i] s.V)).goto .feedfwd 0) := by
  unfold execRound at h
  dsimp only at h
  split at h
  · exact .inl ⟨⟨i.val + 1, by omega⟩, rfl, by simpa using h.symm⟩
  · exact .inr ⟨by omega, by simpa using h.symm⟩

/-- FEEDFWD: the feed-forward, then the next block or FINISH (R163). -/
theorem execFeedfwd_cases {s t : State} (h : execFeedfwd s = .next t) :
    (s.blk.toNat + 1 < s.NBLK.toNat ∧
      t = ((s.setH (feedForward s.H s.V)).setBlk (s.blk + 1)).goto .ldblk 0) ∨
    (s.NBLK.toNat ≤ s.blk.toNat + 1 ∧ t = (s.setH (feedForward s.H s.V)).goto .finish 0) := by
  unfold execFeedfwd at h
  dsimp only at h
  split at h
  · exact .inl ⟨‹_›, by simpa using h.symm⟩
  · exact .inr ⟨by omega, by simpa using h.symm⟩

/-- The next block index, exact where there is a next block (R163, R174). -/
theorem blk_succ_toNat {b n : BitVec 56} (h : b.toNat + 1 < n.toNat) : (b + 1).toNat = b.toNat + 1 := by
  have := n.isLt
  simp only [BitVec.toNat_add, BitVec.ofNat_eq_ofNat, BitVec.toNat_ofNat]
  omega

theorem execMsgwr_cases {addr : BitVec 61} {b : Byte} {s t : State} (h : execMsgwr addr b s = .next t) :
    addr.toNat < s.MSG_BYTES ∧ ¬(s.BUSY = true ∧ addr.toNat < s.LEN.toNat) ∧ t = s.storeByte addr.toNat b := by
  unfold execMsgwr at h
  split at h
  · simp at h
  · split at h
    · simp at h
    · exact ⟨by omega, ‹_›, by simpa using h.symm⟩

theorem execMsgrd_cases {addr : BitVec 61} {s t : State} (h : execMsgrd addr s = .next t) :
    addr.toNat < s.MSG_BYTES ∧ ∃ b, s.MSG.read addr.toNat = some b ∧ t = s.respond (.byte b) := by
  unfold execMsgrd at h
  split at h
  · simp at h
  · split at h
    · rename_i b hb
      exact ⟨by omega, b, hb, by simpa using h.symm⟩
    · simp at h

/-- A host transaction that answers a next state is one of these: an accepted START, a length write, a byte stored, or a
step that changes nothing but the host's own answers. -/
theorem execHost_cases {i : Instr} {s t : State} (hi : i.isEngine = false) (h : exec i s = .next t) :
    (i = .start ∧ s.BUSY = false ∧ t = s.acceptStart) ∨
    (∃ m, (∃ d, i = .wrmlenlo d ∨ i = .wrmlenhi d) ∧ t = s.setMLEN m) ∨
    (∃ addr b, i = .msgwr addr b ∧ addr.toNat < s.MSG_BYTES ∧ ¬(s.BUSY = true ∧ addr.toNat < s.LEN.toNat) ∧
      t = s.storeByte addr.toNat b) ∨
    (t = s ∨ (∃ r, t = s.respond r) ∨ t = s.respondFree) := by
  cases i with
  | start =>
    simp only [exec, execStart] at h
    split at h
    · exact .inr (.inr (.inr (.inl (by simpa using h.symm))))
    · rename_i hb
      exact .inl ⟨rfl, Bool.eq_false_iff.mpr hb, by simpa using h.symm⟩
  | wrmlenlo d => exact .inr (.inl ⟨_, ⟨d, .inl rfl⟩, by simpa [exec, execWrmlenlo] using h.symm⟩)
  | wrmlenhi d => exact .inr (.inl ⟨_, ⟨d, .inr rfl⟩, by simpa [exec, execWrmlenhi] using h.symm⟩)
  | msgwr addr b =>
    obtain ⟨h1, h2, h3⟩ := execMsgwr_cases h
    exact .inr (.inr (.inl ⟨addr, b, rfl, h1, h2, h3⟩))
  | msgrd addr =>
    obtain ⟨-, b, -, h3⟩ := execMsgrd_cases h
    exact .inr (.inr (.inr (.inr (.inl ⟨_, h3⟩))))
  | rddigest j =>
    simp only [exec, execRddigest] at h
    split at h
    · exact .inr (.inr (.inr (.inr (.inl ⟨_, by simpa using h.symm⟩))))
    · exact .inr (.inr (.inr (.inr (.inr (by simpa using h.symm)))))
  | rddhex q =>
    simp only [exec, execRddhex] at h
    split at h
    · exact .inr (.inr (.inr (.inr (.inl ⟨_, by simpa using h.symm⟩))))
    · exact .inr (.inr (.inr (.inr (.inr (by simpa using h.symm)))))
  | rdctrl => exact .inr (.inr (.inr (.inr (.inl ⟨_, by simpa [exec, execRdctrl] using h.symm⟩))))
  | rdstatus => exact .inr (.inr (.inr (.inr (.inl ⟨_, by simpa [exec, execRdstatus] using h.symm⟩))))
  | rdmlenlo => exact .inr (.inr (.inr (.inr (.inl ⟨_, by simpa [exec, execRdmlenlo] using h.symm⟩))))
  | rdmlenhi => exact .inr (.inr (.inr (.inr (.inl ⟨_, by simpa [exec, execRdmlenhi] using h.symm⟩))))
  | rdrsvd r => exact .inr (.inr (.inr (.inr (.inl ⟨_, by simpa [exec, execRdrsvd] using h.symm⟩))))
  | nop => exact .inr (.inr (.inr (.inl (by simpa [exec, execNop] using h.symm))))
  | rsvdctrl d => exact .inr (.inr (.inr (.inl (by simpa [exec, execRsvdctrl] using h.symm))))
  | wrstatus d => exact .inr (.inr (.inr (.inl (by simpa [exec, execWrstatus] using h.symm))))
  | wrrsvd r d => exact .inr (.inr (.inr (.inl (by simpa [exec, execWrrsvd] using h.symm))))
  | wrdigest j d => exact .inr (.inr (.inr (.inl (by simpa [exec, execWrdigest] using h.symm))))
  | wrdhex q d => exact .inr (.inr (.inr (.inl (by simpa [exec, execWrdhex] using h.symm))))
  | _ => simp [Instr.isEngine] at hi

/-- No operation touches the parameter MSG_BYTES or the inputs still to come. -/
theorem exec_keeps_inputs {i : Instr} {s t : State} (h : exec i s = .next t) :
    t.MSG_BYTES = s.MSG_BYTES ∧ t.inputs = s.inputs := by
  by_cases hi : i.isEngine = false
  · obtain ⟨-, -, rfl⟩ | ⟨m, -, rfl⟩ | ⟨a, b, -, -, -, rfl⟩ | rfl | ⟨r, rfl⟩ | rfl := execHost_cases hi h <;> simp
  · cases i with
    | pad => obtain ⟨-, rfl⟩ | ⟨-, rfl⟩ := execPad_cases h <;> simp
    | init => simp only [exec, execInit, Host.Outcome.next.injEq] at h; subst h; simp
    | ldblk => obtain ⟨-, rfl⟩ := execLdblk_cases h; simp
    | expand k => obtain ⟨-, w, -, ⟨j, -, rfl⟩ | ⟨-, rfl⟩⟩ := execExpand_cases h <;> simp
    | ldwork => simp only [exec, execLdwork, Host.Outcome.next.injEq] at h; subst h; simp
    | round k => obtain ⟨j, -, rfl⟩ | ⟨-, rfl⟩ := execRound_cases h <;> simp
    | feedfwd => obtain ⟨-, rfl⟩ | ⟨-, rfl⟩ := execFeedfwd_cases h <;> simp
    | finish => simp only [exec, execFinish, Host.Outcome.next.injEq] at h; subst h; simp
    | _ => simp [Instr.isEngine] at hi

end Sys2Proof.Machine
end

