-- ==== Sys2Proof/Laws/PerInstr.lean ====
section
/-! SUPPORT. Per instruction: the encoder's word carries the fixed bits of the instruction's row of
spec/opcode_table.json (30_encoding.md R101). Every row's fixed bits are its topmost ones, so the row says: bits
width−1 : lo of the word are `value`. -/

namespace Sys2Proof.Laws.TableRow

/-- The bits of an operation's word, numbered as its table row numbers them: a row of 38 (or 70) bits takes in the
data word (or the byte), a shorter one is the selector alone. -/
def number (width : Nat) : Code → Nat
  | .seq w => w.toNat
  | .host (.regx sel data) => if width = 38 then sel.toNat * 2 ^ 32 + data.toNat else sel.toNat
  | .host (.msgx sel byte) => if width = 70 then sel.toNat * 2 ^ 8 + byte.toNat else sel.toNat

/-- The instruction's row: its width, the lowest fixed bit, and the value of the fixed bits. -/
def row : Instr → Nat × Nat × Nat
  | .pad => (10, 0, 0x040)
  | .init => (10, 0, 0x080)
  | .ldblk => (10, 0, 0x0c0)
  | .expand _ => (10, 6, 4)
  | .ldwork => (10, 0, 0x140)
  | .round _ => (10, 6, 6)
  | .feedfwd => (10, 0, 0x1c0)
  | .finish => (10, 0, 0x200)
  | .start => (38, 0, 0x2000000001)
  | .nop => (38, 0, 0x2000000000)
  | .rsvdctrl _ => (38, 32, 0x20)
  | .rdctrl => (6, 0, 0x00)
  | .rdstatus => (6, 0, 0x01)
  | .wrstatus _ => (6, 0, 0x21)
  | .rdmlenlo => (6, 0, 0x02)
  | .wrmlenlo _ => (6, 0, 0x22)
  | .rdmlenhi => (6, 0, 0x03)
  | .wrmlenhi _ => (6, 0, 0x23)
  | .rdrsvd _ => (6, 2, 1)
  | .wrrsvd _ _ => (6, 2, 9)
  | .rddigest _ => (6, 3, 1)
  | .wrdigest _ _ => (6, 3, 5)
  | .rddhex _ => (6, 4, 1)
  | .wrdhex _ _ => (6, 4, 3)
  | .msgwr _ _ => (70, 69, 1)
  | .msgrd _ => (62, 61, 0)

/-- The word fits the row's width and carries the row's fixed bits. -/
def Statement (i : Instr) : Prop :=
  number (row i).1 (encode i) < 2 ^ (row i).1 ∧ number (row i).1 (encode i) / 2 ^ (row i).2.1 = (row i).2.2

theorem pad : Statement .pad := ⟨by decide, rfl⟩

theorem init : Statement .init := ⟨by decide, rfl⟩

theorem ldblk : Statement .ldblk := ⟨by decide, rfl⟩

theorem expand (i : Fin 64) : Statement (.expand i) := by revert i; unfold Statement; decide

theorem ldwork : Statement .ldwork := ⟨by decide, rfl⟩

theorem round (i : Fin 64) : Statement (.round i) := by revert i; unfold Statement; decide

theorem feedfwd : Statement .feedfwd := ⟨by decide, rfl⟩

theorem finish : Statement .finish := ⟨by decide, rfl⟩

theorem start : Statement .start := ⟨by decide, rfl⟩

theorem nop : Statement .nop := ⟨by decide, rfl⟩

theorem rsvdctrl (data : Word) : Statement (.rsvdctrl data) := by
  have h := data.isLt
  have e : number 38 (encode (.rsvdctrl data)) = 32 * 2 ^ 32 + data.toNat := rfl
  simp only [Statement, row, e]
  omega

theorem rdctrl : Statement .rdctrl := ⟨by decide, rfl⟩

theorem rdstatus : Statement .rdstatus := ⟨by decide, rfl⟩

theorem wrstatus (data : Word) : Statement (.wrstatus data) :=
  ⟨(by decide : (regSel true 1).toNat < 2 ^ 6), (by decide : (regSel true 1).toNat / 2 ^ 0 = 0x21)⟩

theorem rdmlenlo : Statement .rdmlenlo := ⟨by decide, rfl⟩

theorem wrmlenlo (data : Word) : Statement (.wrmlenlo data) :=
  ⟨(by decide : (regSel true 2).toNat < 2 ^ 6), (by decide : (regSel true 2).toNat / 2 ^ 0 = 0x22)⟩

theorem rdmlenhi : Statement .rdmlenhi := ⟨by decide, rfl⟩

theorem wrmlenhi (data : Word) : Statement (.wrmlenhi data) :=
  ⟨(by decide : (regSel true 3).toNat < 2 ^ 6), (by decide : (regSel true 3).toNat / 2 ^ 0 = 0x23)⟩

theorem rdrsvd (r : Fin 4) : Statement (.rdrsvd r) := by revert r; unfold Statement; decide

theorem wrrsvd (r : Fin 4) (data : Word) : Statement (.wrrsvd r data) := by
  revert r
  change ∀ r : Fin 4, (regSel true (BitVec.ofNat 5 (4 + r.val))).toNat < 2 ^ 6 ∧
    (regSel true (BitVec.ofNat 5 (4 + r.val))).toNat / 2 ^ 2 = 9
  decide

theorem rddigest (j : Fin 8) : Statement (.rddigest j) := by revert j; unfold Statement; decide

theorem wrdigest (j : Fin 8) (data : Word) : Statement (.wrdigest j data) := by
  revert j
  change ∀ j : Fin 8, (regSel true (BitVec.ofNat 5 (8 + j.val))).toNat < 2 ^ 6 ∧
    (regSel true (BitVec.ofNat 5 (8 + j.val))).toNat / 2 ^ 3 = 5
  decide

theorem rddhex (q : Fin 16) : Statement (.rddhex q) := by revert q; unfold Statement; decide

theorem wrdhex (q : Fin 16) (data : Word) : Statement (.wrdhex q data) := by
  revert q
  change ∀ q : Fin 16, (regSel true (BitVec.ofNat 5 (16 + q.val))).toNat < 2 ^ 6 ∧
    (regSel true (BitVec.ofNat 5 (16 + q.val))).toNat / 2 ^ 4 = 3
  decide

theorem msgwr (addr : BitVec 61) (byte : Byte) : Statement (.msgwr addr byte) := by
  have h := byte.isLt
  have h2 := addr.isLt
  have e : number 70 (encode (.msgwr addr byte)) = (BitVec.ofBool true ++ addr).toNat * 2 ^ 8 + byte.toNat := rfl
  rw [BitVec.toNat_append, ← Nat.shiftLeft_add_eq_or_of_lt h2] at e
  have e1 : (BitVec.ofBool true).toNat = 1 := rfl
  simp only [Statement, row, e, e1, Nat.shiftLeft_eq]
  omega

theorem msgrd (addr : BitVec 61) : Statement (.msgrd addr) := by
  have h2 := addr.isLt
  have e : number 62 (encode (.msgrd addr)) = (BitVec.ofBool false ++ addr).toNat := rfl
  rw [BitVec.toNat_append, ← Nat.shiftLeft_add_eq_or_of_lt h2] at e
  have e0 : (BitVec.ofBool false).toNat = 0 := rfl
  simp only [Statement, row, e, e0, Nat.shiftLeft_eq]
  omega

end Sys2Proof.Laws.TableRow
end

