-- ==== Sys2Proof/Laws/Step.lean ====
section
/-! SUPPORT. What one step can be, said once, and how steps compose. -/

namespace Sys2Proof.Machine

/-- The words of the host decode to operations of the host. -/
theorem decodeHost_isEngine (h : HostWord) : (decodeHost h).isEngine = false := by
  cases h with
  | regx sel data =>
    simp only [decodeHost, decodeRegWrite, decodeRegRead, decodeCtrl]
    repeat' split
    all_goals rfl
  | msgx sel byte =>
    simp only [decodeHost]
    split <;> rfl

theorem decodeSeq_isEngine {w : BitVec 10} {i : Instr} (h : decodeSeq w = .ok i) : i.isEngine = true := by
  obtain ⟨-, rfl⟩ | ⟨-, rfl⟩ | ⟨-, rfl⟩ | ⟨k, -, -, rfl⟩ | ⟨-, rfl⟩ | ⟨k, -, rfl⟩ | ⟨-, rfl⟩ | ⟨-, rfl⟩ :=
    decodeSeq_cases h <;> rfl

/-- The turn is the engine's: no input is left, or the next one says so. -/
def State.EngineTurn (s : State) : Prop := s.inputs = [] ∨ ∃ rest, s.inputs = .engine :: rest

theorem nextTurn_engine {s : State} (h : s.EngineTurn) : nextTurn s = engineTurn s := by
  obtain h | ⟨rest, h⟩ := h <;> simp [nextTurn, h]

/-- A step is one of four: RESET, the turn of an idle engine, a transaction of the host, a micro-operation. -/
theorem step_cases {s t : State} (h : step s = .next t) :
    ((∃ rest, s.inputs = .reset :: rest) ∧ t = s.dropInput.resetEvent) ∨
    (s.EngineTurn ∧ s.seq = seqWord .idle 0 ∧ t = s.dropInput) ∨
    (∃ hw rest, s.inputs = .host hw :: rest ∧ exec (decodeHost hw) s.dropInput = .next t) ∨
    (∃ i, s.EngineTurn ∧ s.seq ≠ seqWord .idle 0 ∧ decodeSeq s.seq = .ok i ∧ exec i s.dropInput = .next t) := by
  have engine : s.EngineTurn → (s.seq = seqWord .idle 0 ∧ t = s.dropInput) ∨
      ∃ i, s.seq ≠ seqWord .idle 0 ∧ decodeSeq s.seq = .ok i ∧ exec i s.dropInput = .next t := by
    intro he
    unfold step at h
    rw [nextTurn_engine he, engineTurn] at h
    by_cases hid : s.isIdle = true
    · rw [if_pos hid] at h
      exact .inl ⟨(isIdle_iff s).mp hid, by simpa using h.symm⟩
    · rw [if_neg hid] at h
      rw [isIdle_iff] at hid
      simp only [decode] at h
      cases hd : decodeSeq s.seq with
      | ok i => rw [hd] at h; exact .inr ⟨i, hid, rfl, h⟩
      | error e => rw [hd] at h; cases e; simp [decodeStop] at h
  cases hin : s.inputs with
  | nil =>
    have he : s.EngineTurn := .inl hin
    obtain h1 | ⟨i, h1⟩ := engine he
    · exact .inr (.inl ⟨he, h1⟩)
    · exact .inr (.inr (.inr ⟨i, he, h1⟩))
  | cons x rest =>
    cases x with
    | reset =>
      refine .inl ⟨⟨rest, rfl⟩, ?_⟩
      simp only [step, nextTurn, hin, Host.Outcome.next.injEq] at h
      exact h.symm
    | engine =>
      have he : s.EngineTurn := .inr ⟨rest, hin⟩
      obtain h1 | ⟨i, h1⟩ := engine he
      · exact .inr (.inl ⟨he, h1⟩)
      · exact .inr (.inr (.inr ⟨i, he, h1⟩))
    | host hw =>
      refine .inr (.inr (.inl ⟨hw, rest, rfl, ?_⟩))
      simpa only [step, nextTurn, hin, decode] using h

/-- Running a sequencer word that decodes, in the engine's turn. -/
theorem step_engine {s : State} {i : Instr} (h : s.EngineTurn) (hd : decode (.seq s.seq) = .ok i) :
    step s = exec i s.dropInput := by
  have hne : s.isIdle ≠ true := by
    rw [ne_eq, isIdle_iff]
    intro h0
    rw [h0] at hd
    simp [decode, decodeSeq, Phase.code] at hd
  simp [step, nextTurn_engine h, engineTurn, hne, hd]

theorem step_host {s : State} {hw : HostWord} {rest : List Input} (h : s.inputs = .host hw :: rest) :
    step s = exec (decodeHost hw) s.dropInput := by
  simp [step, nextTurn, h, decode]

theorem step_idle {s : State} (h : s.EngineTurn) (h0 : s.seq = seqWord .idle 0) : step s = .next s.dropInput := by
  simp [step, nextTurn_engine h, engineTurn, (isIdle_iff s).mpr h0]

theorem dropInput_of_nil {s : State} (h : s.inputs = []) : s.dropInput = s := by
  cases s
  simp_all [State.dropInput]

@[simp] theorem steps_zero (s : State) : steps 0 s = .next s := rfl

theorem steps_succ_of_step {n : Nat} {s t : State} (h : step s = .next t) : steps (n + 1) s = steps n t := by
  simp [steps, h]

/-- Steps compose. -/
theorem steps_add {m n : Nat} {s t : State} (h : steps m s = .next t) : steps (m + n) s = steps n t := by
  induction m generalizing s with
  | zero => simp only [steps_zero, Host.Outcome.next.injEq] at h; subst h; simp
  | succ m ih =>
    rw [Nat.add_right_comm]
    simp only [steps] at h ⊢
    cases hs : step s with
    | next u => rw [hs] at h; exact ih h
    | fault r => rw [hs] at h; simp at h
    | refused r => rw [hs] at h; simp at h

/-- What a step keeps whatever the run does, every number of steps keeps. -/
theorem steps_induction {p : State → Prop} (hp : ∀ s t, p s → step s = .next t → p t) {n : Nat} {s t : State}
    (h0 : p s) (h : steps n s = .next t) : p t := by
  induction n generalizing s with
  | zero => simp only [steps_zero, Host.Outcome.next.injEq] at h; exact h ▸ h0
  | succ n ih =>
    simp only [steps] at h
    cases hs : step s with
    | next u => rw [hs] at h; exact ih (hp s u h0 hs) h
    | fault r => rw [hs] at h; simp at h
    | refused r => rw [hs] at h; simp at h

end Sys2Proof.Machine
end

