-- ==== Sys2Proof/Tests/Slice0.lean ====
section
/-! SUPPORT. The model's own tests. Expected values are those of 30_encoding.md and of 95_test_vectors.md (the tables
V-FUNC to V-SEQ, named at each test). The last section gives, for every statement of Obligations.lean that has
hypotheses, a concrete state and operands that meet them. -/

namespace Sys2Proof.Tests

open Sys2Proof.Machine

/-! ## WellFormed refuses an ill-formed term for each of its checks -/

theorem test_wf_refuses_expand_below_16 : (Instr.expand 15).wf = false := by decide

theorem test_wf_refuses_reserved_ctrl_that_is_nop_or_start :
    (Instr.rsvdctrl 0).wf = false ∧ (Instr.rsvdctrl 1).wf = false := by decide

theorem test_wf_accepts_the_boundaries :
    (Instr.expand 16).wf = true ∧ (Instr.expand 63).wf = true ∧ (Instr.rsvdctrl 2).wf = true ∧
    (Instr.rsvdctrl 0xffffffff).wf = true := by decide

/-! ## Every constructor's word, bit by bit (30_encoding.md R100, R101) -/

theorem test_decode_sequencer_words :
    decodeTableWord 16 0b0001000000 = some .pad ∧
    decodeTableWord 16 0b0010000000 = some .init ∧
    decodeTableWord 16 0b0011000000 = some .ldblk ∧
    decodeTableWord 16 0b0100111111 = some (.expand 63) ∧
    decodeTableWord 16 0b0101000000 = some .ldwork ∧
    decodeTableWord 16 0b0110000101 = some (.round 5) ∧
    decodeTableWord 16 0b0111000000 = some .feedfwd ∧
    decodeTableWord 16 0b1000000000 = some .finish := by decide

theorem test_decode_rejects_sequencer_words :
    decodeTableWord 16 0b0000000000 = none ∧ decodeTableWord 16 0b0001000001 = none ∧
    decodeTableWord 16 0b0100001111 = none ∧ decodeTableWord 16 0b1111111111 = none := by decide

theorem test_decode_ctrl_words :
    decodeTableWord 40 0b100000_00000000000000000000000000000001 = some .start ∧
    decodeTableWord 40 0b100000_00000000000000000000000000000000 = some .nop ∧
    decodeTableWord 40 0b100000_10000000000000000000000000000001 = some (.rsvdctrl 0x80000001) := by decide

theorem test_decode_register_reads :
    decodeTableWord 8 0b000000 = some .rdctrl ∧
    decodeTableWord 8 0b000001 = some .rdstatus ∧
    decodeTableWord 8 0b000010 = some .rdmlenlo ∧
    decodeTableWord 8 0b000011 = some .rdmlenhi ∧
    decodeTableWord 8 0b000110 = some (.rdrsvd 2) ∧
    decodeTableWord 8 0b001101 = some (.rddigest 5) ∧
    decodeTableWord 8 0b011001 = some (.rddhex 9) := by decide

theorem test_decode_register_writes :
    decodeTableWord 8 0b100001 = some (.wrstatus 0) ∧
    decodeTableWord 8 0b100010 = some (.wrmlenlo 0) ∧
    decodeTableWord 8 0b100011 = some (.wrmlenhi 0) ∧
    decodeTableWord 8 0b100111 = some (.wrrsvd 3 0) ∧
    decodeTableWord 8 0b101110 = some (.wrdigest 6 0) ∧
    decodeTableWord 8 0b110010 = some (.wrdhex 2 0) ∧
    decodeTableWord 40 0b100010_00010010001101000101011001111000 = some (.wrmlenlo 0x12345678) := by decide

theorem test_decode_message_words :
    decodeTableWord 72 (2 ^ 69 + 5 * 2 ^ 8 + 0xe3) = some (.msgwr 5 0xe3) ∧
    decodeTableWord 64 0 = some (.msgrd 0) ∧
    decodeTableWord 64 (2 ^ 61 - 1) = some (.msgrd 0x1fffffffffffffff) := by decide

/-! ## Words and functions (V-FUNC) -/

theorem test_word_functions :
    ssig0 0x12345678 = 0xe7fce6ee ∧ ssig1 0x12345678 = 0xa1f78649 ∧
    bsig0 0x12345678 = 0x66146474 ∧ bsig1 0x12345678 = 0x3561abda ∧
    ch 0x510e527f 0x9b05688c 0x1f83d9ab = 0x1f85c98c ∧ maj 0x6a09e667 0xbb67ae85 0x3c6ef372 = 0x3a6fe667 := by
  decide

theorem test_rotation_and_shift :
    rotr 0x80000001 31 = 0x00000003 ∧ shr 0x80000001 31 = 0x00000001 ∧ rotr 0x80000001 1 = 0xc0000000 := by decide

/-- V-CONST: the roots of the first and the last prime, and their low 32 bits. -/
theorem test_constants :
    0x16a09e667 ^ 2 ≤ 2 * 2 ^ 64 ∧ 2 * 2 ^ 64 < (0x16a09e667 + 1) ^ 2 ∧ initIV[0].toNat = 0x16a09e667 % 2 ^ 32 ∧
    0x6c67178f2 ^ 3 ≤ 311 * 2 ^ 96 ∧ 311 * 2 ^ 96 < (0x6c67178f2 + 1) ^ 3 ∧
    roundK[63].toNat = 0x6c67178f2 % 2 ^ 32 := by decide

/-- 10_state.md R30: the four places of a line, and both sides of a line's end. -/
theorem test_round_constant_places :
    roundK[0] = 0x428a2f98 ∧ roundK[1] = 0x71374491 ∧ roundK[2] = 0xb5c0fbcf ∧ roundK[3] = 0xe9b5dba5 ∧
    roundK[4] = 0x3956c25b ∧ roundK[59] = 0x8cc70208 ∧ roundK[60] = 0x90befffa := by decide

/-! ## One operation at a time -/

/-- The operation answers a next state with the property. -/
def runs (i : Instr) (s : State) (p : State → Bool) : Bool :=
  match exec i s with
  | .next t => p t
  | .fault _ => false
  | .refused _ => false

/-- The step answers a next state with the property. -/
def stepRuns (s : State) (p : State → Bool) : Bool :=
  match step s with
  | .next t => p t
  | .fault _ => false
  | .refused _ => false

/-- The operation is refused for the reason. -/
def refuses (i : Instr) (s : State) (r : Refusal) : Bool :=
  match exec i s with
  | .refused q => q == r
  | .next _ => false
  | .fault _ => false

/-- The Message "abc" loaded, the engine at LDBLK of its only block. -/
def abc : State :=
  { State.reset with
    H := initIV
    LEN := 3
    NBLK := 1
    MLEN := 3
    seq := 0x0c0#10
    BUSY := true
    MSG := [(0, 0x61), (1, 0x62), (2, 0x63)]
    MSG_BYTES := 64 }

/-- The schedule words the tests need: the named ones, 0 elsewhere. -/
def scheduleOf (l : List (Fin 64 × Word)) : Vector Word 64 :=
  l.foldl (fun w p => w.set p.1.val p.2) (Vector.replicate 64 0)

theorem test_pad_counts_blocks :
    runs .pad { abc with LEN := 56, seq := 0x040#10 } (fun t => t.NBLK == 2 && t.blk == 0 && t.seq == 0x080#10) = true ∧
    runs .pad { abc with LEN := 0x1fffffffffffffff } (fun t => t.NBLK == 0x80000000000001 && !t.ERR) = true := by
  decide

theorem test_pad_overflow :
    runs .pad { abc with LEN := 0x2000000000000000 } (fun t => t.status == 0x14 && t.seq == 0#10 && t.NBLK == 1
      && t.H == initIV) = true ∧
    runs .pad { abc with LEN := 0xffffffffffffffff } (fun t => t.ERR && !t.BUSY) = true := by decide

theorem test_init_loads_iv :
    runs .init State.reset (fun t => t.H[7] == 0x5be0cd19 && t.H[0] == 0x6a09e667 && t.seq == 0x0c0#10) = true := by
  decide

theorem test_ldblk_abc :
    runs .ldblk abc (fun t => t.W[0] == 0x61626380 && t.W[1] == 0 && t.W[15] == 0x00000018 && t.seq == 0x110#10)
      = true := by decide

theorem test_ldblk_second_block_is_padding :
    runs .ldblk { abc with LEN := 56, NBLK := 2, blk := 1, MSG := [] }
      (fun t => t.W[0] == 0 && t.W[14] == 0 && t.W[15] == 0x000001c0) = true := by decide

theorem test_expand_31 :
    runs (.expand 31) { abc with W := scheduleOf [(29, 0xec8726cb), (24, 0xc8215c1a), (16, 0x61626380), (15, 0x18)] }
      (fun t => t.W[31] == 0xd3b7973b && t.seq == 0x120#10) = true := by decide

theorem test_expand_63_goes_to_ldwork :
    runs (.expand 63) { abc with W := scheduleOf [(61, 0x668b2ff8), (56, 0xef57b9cd), (48, 0xfb3e89cb), (47, 0x065c43da)] }
      (fun t => t.W[63] == 0x12b1edeb && t.seq == 0x140#10) = true := by decide

theorem test_ldwork_order :
    runs .ldwork abc (fun t => t.V.a == 0x6a09e667 && t.V.h == 0x5be0cd19 && t.V.e == 0x510e527f && t.seq == 0x180#10)
      = true := by decide

theorem test_round_0_abc :
    runs (.round 0) { abc with V := workOf initIV, W := scheduleOf [(0, 0x61626380)] }
      (fun t => t.V == ⟨0x5d6aebcd, 0x6a09e667, 0xbb67ae85, 0x3c6ef372, 0xfa2a4622, 0x510e527f, 0x9b05688c, 0x1f83d9ab⟩
        && t.seq == 0x181#10) = true := by decide

theorem test_round_63_abc :
    runs (.round 63) { abc with
        V := ⟨0xd39a2165, 0x04d24d6c, 0xb85e2ce9, 0xb6ae8fff, 0xfb121210, 0x948d25b6, 0x961f4894, 0xb21bad3d⟩
        W := scheduleOf [(63, 0x12b1edeb)] }
      (fun t => t.V.a == 0x506e3058 && t.V.e == 0x5ef50f24 && t.V.d == 0xb85e2ce9 && t.seq == 0x1c0#10) = true := by
  decide

theorem test_feedfwd_last_block :
    runs .feedfwd { abc with
        V := ⟨0x506e3058, 0xd39a2165, 0x04d24d6c, 0xb85e2ce9, 0x5ef50f24, 0xfb121210, 0x948d25b6, 0x961f4894⟩ }
      (fun t => t.H == #v[0xba7816bf, 0x8f01cfea, 0x414140de, 0x5dae2223, 0xb00361a3, 0x96177a9c, 0xb410ff61, 0xf20015ad]
        && t.blk == 0 && t.seq == 0x200#10) = true := by decide

theorem test_feedfwd_next_block :
    runs .feedfwd { abc with
        NBLK := 2
        V := ⟨0x1bdc6f6f, 0x86126910, 0xf6f443f8, 0xbcfce922, 0x25d2430a, 0x2fc08f85, 0xacc75916, 0x962d8621⟩ }
      (fun t => t.H[0] == 0x85e655d6 && t.H[7] == 0xf20e533a && t.blk == 1 && t.seq == 0x0c0#10) = true := by decide

/-- The end of the digest of "abc". -/
def abcDone : State :=
  { abc with
    H := #v[0xba7816bf, 0x8f01cfea, 0x414140de, 0x5dae2223, 0xb00361a3, 0x96177a9c, 0xb410ff61, 0xf20015ad]
    BUSY := false
    DONE := true
    seq := 0#10 }

theorem test_finish :
    runs .finish { abc with seq := 0x200#10 } (fun t => t.status == 2 && t.seq == 0#10 && t.H == initIV) = true := by
  decide

theorem test_start :
    runs .start { abcDone with DONE := false, ERR := true, CAUSE := 1, MLEN := 0 }
      (fun t => t.LEN == 0 && t.status == 1 && t.seq == 0x040#10) = true ∧
    runs .start { abcDone with MLEN := 0x2000000000000000 }
      (fun t => t.LEN == 0x2000000000000000 && t.H == abcDone.H && t.status == 1) = true := by decide

theorem test_start_while_busy : runs .start { abc with MLEN := 64 } (fun t => t == { abc with MLEN := 64 }) = true := by
  decide

theorem test_nop_and_reserved_ctrl :
    runs .nop abc (· == abc) = true ∧ runs (.rsvdctrl 3) abcDone (· == abcDone) = true := by decide

theorem test_ignored_writes :
    runs (.wrstatus 0xffffffff) abc (· == abc) = true ∧ runs (.wrrsvd 1 0xffffffff) abc (· == abc) = true ∧
    runs (.wrdigest 0 0) abcDone (· == abcDone) = true ∧ runs (.wrdhex 0 0) abcDone (· == abcDone) = true := by decide

theorem test_zero_reads :
    runs .rdctrl abc (fun t => t.outputs == [.word 0]) = true ∧
    runs (.rdrsvd 1) abc (fun t => t.outputs == [.word 0]) = true := by decide

theorem test_rdstatus :
    runs .rdstatus abcDone (fun t => t.outputs == [.word 2] && t.DONE) = true ∧
    runs .rdstatus abc (fun t => t.outputs == [.word 1]) = true := by decide

theorem test_wrmlen :
    runs (.wrmlenlo 0x12345678) { abc with MLEN := 0x0000000100000003 }
      (fun t => t.MLEN == 0x0000000112345678 && t.LEN == 3) = true ∧
    runs (.wrmlenhi 1) { abc with MLEN := 0x12345678 } (fun t => t.MLEN == 0x0000000112345678) = true := by decide

theorem test_rdmlen :
    runs .rdmlenlo { abc with MLEN := 0x0000000112345678 } (fun t => t.outputs == [.word 0x12345678]) = true ∧
    runs .rdmlenhi { abc with MLEN := 0x0000000112345678 } (fun t => t.outputs == [.word 1]) = true := by decide

theorem test_rddigest :
    runs (.rddigest 0) abcDone (fun t => t.outputs == [.word 0xba7816bf]) = true ∧
    runs (.rddigest 7) abcDone (fun t => t.outputs == [.word 0xf20015ad]) = true := by decide

theorem test_rddhex :
    runs (.rddhex 0) abcDone (fun t => t.outputs == [.word 0x62613738]) = true ∧
    runs (.rddhex 15) abcDone (fun t => t.outputs == [.word 0x31356164]) = true := by decide

theorem test_read_before_done_runs :
    runs (.rddigest 0) abc (fun t => t.outputs.length == 1 && t.freeCtr == 1) = true ∧
    runs (.rddhex 0) abc (fun t => t.outputs.length == 1 && t.freeCtr == 1) = true := by
  refine ⟨?_, ?_⟩ <;> rfl

theorem test_msgwr :
    runs (.msgwr 5 0xe3) abc (fun t => t.MSG.read 5 == some 0xe3 && t.MSG.read 0 == some 0x61) = true ∧
    runs (.msgwr 0 0x62) abcDone (fun t => t.MSG == [(0, 0x62), (1, 0x62), (2, 0x63)]) = true := by decide

theorem test_msgrd : runs (.msgrd 2) abc (fun t => t.outputs == [.byte 0x63]) = true := by decide

theorem test_message_refusals :
    refuses (.msgwr 2 0) abc .messageWrittenWhileBusy = true ∧ refuses (.msgwr 64 0) abc .beyondMsgBytes = true ∧
    refuses (.msgrd 64) abc .beyondMsgBytes = true := by decide

/-! ## The step -/

theorem test_step_runs_the_engine : stepRuns abc (fun t => t.seq == 0x110#10) = true := by decide

theorem test_step_takes_the_host_first :
    stepRuns { abc with inputs := [regrd 1, .engine] } (fun t => t.outputs == [.word 1] && t.inputs == [.engine])
      = true := by decide

theorem test_fetch_word_runs_from_reset :
    stepRuns (State.reset.withFetchWord 40 0x2000000001) (fun t => t.BUSY && t.seq == 0x040#10) = true ∧
    stepRuns (State.reset.withFetchWord 16 0x080) (fun t => t.H == initIV) = true ∧
    stepRuns (State.reset.withFetchWord 72 (2 ^ 69 + 5 * 2 ^ 8 + 0xe3)) (fun t => t.MSG == [(5, 0xe3)]) = true := by
  decide

theorem test_reset_memory_wf : Memory.wf State.reset.MSG := by decide

/-! ## Witnesses: states and operands that meet the hypotheses of the statements -/

/-- A next state exists. -/
def goes (i : Instr) (s : State) : Bool := runs i s fun _ => true

theorem exists_next_of_goes {i : Instr} {s : State} (h : goes i s = true) : ∃ t, exec i s = .next t := by
  unfold goes runs at h
  split at h
  · exact ⟨_, ‹_›⟩
  · cases h
  · cases h

theorem exists_step_of_stepRuns {s : State} {p : State → Bool} (h : stepRuns s p = true) :
    ∃ t, step s = .next t ∧ p t = true := by
  unfold stepRuns at h
  split at h
  · exact ⟨_, ‹_›, h⟩
  · cases h
  · cases h

theorem abc_messageReady : abc.MessageReady 3 := by
  intro a ha
  have : a = 0 ∨ a = 1 ∨ a = 2 := by omega
  obtain rfl | rfl | rfl := this
  · exact ⟨by decide, 0x61, rfl⟩
  · exact ⟨by decide, 0x62, rfl⟩
  · exact ⟨by decide, 0x63, rfl⟩

theorem abc_blockReady : abc.BlockReady := by
  intro q _ h
  have e : blockIndex abc q = q := by
    have : abc.blk.toNat = 0 := rfl
    simp [blockIndex, this]
  rw [e] at h ⊢
  exact abc_messageReady q h

theorem abc_blocksOk : abc.BlocksOk := ⟨by decide, by decide, by decide⟩

theorem abc_legalSeq : LegalSeq abc.seq := .inr ⟨.ldblk, rfl⟩

/-- A state in mid-computation keeps the invariants (for StepKeepsInvariants, StatusTakesFourValues and the
statements that assume `Inv`). -/
theorem witness_inv : abc.Inv where
  memory := by decide
  inside := by decide
  size := by decide
  sequencer := abc_legalSeq
  busy := by decide
  oneFlag := by decide
  cause := by decide
  blocks _ _ := abc_blocksOk
  first h := absurd h (by decide)
  last h := absurd h (by decide)

theorem witness_digestInv : abc.DigestInv where
  ldblk _ := rfl
  expand i h := absurd h (by revert i; decide)
  ldwork h := absurd h (by decide)
  round i h := absurd h (by revert i; decide)
  feedfwd h := absurd h (by decide)
  finish h := absurd h (by decide)

theorem witness_step_from_inv :
    ∃ s t, State.Inv s ∧ State.DigestInv s ∧ step s = .next t ∧ s.inputs = [] ∧ s.MessageReady s.LEN.toNat := by
  obtain ⟨t, ht, -⟩ := exists_step_of_stepRuns test_step_runs_the_engine
  exact ⟨abc, t, witness_inv, witness_digestInv, ht, rfl, abc_messageReady⟩

/-- PublishedDigestIsSha256: the engine at FINISH with the digest of "abc". -/
def abcFinish : State := { abc with H := sha256 abc.message, seq := 0x200#10 }

theorem witness_published_digest :
    abcFinish.Inv ∧ abcFinish.DigestInv ∧ abcFinish.DONE = false ∧
    ∃ t, step abcFinish = .next t ∧ t.DONE = true := by
  have e : abcFinish.message = abc.message := by simp only [State.message, abcFinish]
  refine ⟨?_, ?_, rfl, ?_⟩
  · exact {
      memory := by decide
      inside := by decide
      size := by decide
      sequencer := .inr ⟨.finish, rfl⟩
      busy := ⟨fun _ => by decide, fun _ => rfl⟩
      oneFlag := by decide
      cause := rfl
      blocks := fun _ _ => ⟨by decide, by decide, by decide⟩
      first := fun h => absurd h (by decide)
      last := fun _ => by decide }
  · exact {
      ldblk := fun h => absurd h (by decide)
      expand := fun i h => absurd h (by revert i; decide)
      ldwork := fun h => absurd h (by decide)
      round := fun i h => absurd h (by revert i; decide)
      feedfwd := fun h => absurd h (by decide)
      finish := fun _ => by rw [e]; rfl }
  · exact exists_step_of_stepRuns (by rfl)

/-- OutcomeStaysUntilStart: idle with a digest published, a STATUS read to come. -/
theorem witness_idle_with_outcome :
    ({ abcDone with inputs := [regrd 1] } : State).Inv ∧
    ∃ t, step { abcDone with inputs := [regrd 1] } = .next t := by
  refine ⟨?_, ?_⟩
  · exact {
      memory := by decide
      inside := by decide
      size := by decide
      sequencer := .inl rfl
      busy := by decide
      oneFlag := by decide
      cause := by decide
      blocks := fun h => absurd rfl h
      first := fun h => absurd h (by decide)
      last := fun h => absurd h (by decide) }
  · obtain ⟨t, h, -⟩ := exists_step_of_stepRuns (p := fun _ => true)
      (s := { abcDone with inputs := [regrd 1] }) (by decide)
    exact ⟨t, h⟩

/-- DecodeEncodeRoundTrip and EachWordHasOneMeaning at the ends of EXPAND's and RSVDCTRL's ranges. -/
theorem witness_encodings :
    (Instr.expand 63).wf = true ∧ (Instr.rsvdctrl 2).wf = true ∧ decode (.seq 0b0100010000#10) = .ok (.expand 16) ∧
    decode (.seq 0b1000000000#10) = .ok .finish := ⟨by decide, by decide, rfl, rfl⟩

/-- SequencerWordTable: a word of each kind, with its phase and index. -/
theorem witness_sequencer_words :
    (63 < 64 ∧ (0x13f#10).toNat = 64 * 4 + 63) ∧ (0 < 64 ∧ (0x040#10).toNat = 64 * 1 + 0) ∧
    (15 < 64 ∧ (0x10f#10).toNat = 64 * 4 + 15) ∧ (63 < 64 ∧ (0x3ff#10).toNat = 64 * 15 + 63) := by decide

/-- RotationAndShift, WordFunctionsByBits, ByteOrderHelpers, HexDigitsOfTheWords, at the ends of their ranges. -/
theorem witness_operand_ranges :
    (0 < 1 ∧ 1 < 32) ∧ (0 < 31 ∧ 31 < 32) ∧ 3 ≤ 3 ∧ 7 ≤ 7 ∧
    (7 < 8 ∧ (63 : Fin 64).val = 8 * (7 : Fin 8).val + 7 ∧ 5 = initIV[7].toNat / 16 ^ 7 % 16) := by decide

/-- HexStringProperties: two Hash States with the same string (they are the same). -/
theorem witness_equal_hex_strings : hexString abc.H = hexString initIV := rfl

/-- MachinePadsLikeTheSource: "abc", its last padded byte. -/
theorem witness_padding :
    abc.LEN.toNat < 2 ^ 61 ∧ abc.NBLK.toNat = messageBlocks abc.LEN.toNat ∧ abc.MessageReady abc.LEN.toNat ∧
    63 < 64 * abc.NBLK.toNat := ⟨by decide, by decide, abc_messageReady, by decide⟩

/-- PadAcceptsTheLength and PadTakesInputOverflow at the boundary. -/
theorem witness_pad_lengths :
    (0x1fffffffffffffff#64).toNat < 2 ^ 61 ∧ 2 ^ 61 ≤ (0x2000000000000000#64).toNat := by decide

theorem witness_pad_raises :
    ∃ s t, exec .pad s = .next t ∧ s.ERR = false ∧ t.ERR = true :=
  ⟨{ abc with LEN := 0x2000000000000000 }, State.raiseInputOverflow { abc with LEN := 0x2000000000000000 },
    rfl, rfl, rfl⟩

/-- LdblkLoadsTheBlock and OneBlockIsCompress: "abc" is the last block; with a length of 64 block 0 is not. -/
theorem witness_block : abc.seq = 0x0c0#10 ∧ abc.inputs = [] ∧ abc.BlocksOk ∧ abc.BlockReady ∧
    abc.blk.toNat + 1 = abc.NBLK.toNat := ⟨rfl, rfl, abc_blocksOk, abc_blockReady, rfl⟩

/-- `n` bytes of 61 from address `k` on. -/
def fill : Nat → Nat → Memory
  | _, 0 => []
  | k, n + 1 => (k, 0x61) :: fill (k + 1) n

theorem fill_read (k n a : Nat) (h1 : k ≤ a) (h2 : a < k + n) : (fill k n).read a = some 0x61 := by
  induction n generalizing k with
  | zero => omega
  | succ n ih =>
    by_cases h : a = k
    · simp [fill, Memory.read, h]
    · simp only [fill, Memory.read, if_neg h]
      exact ih (k + 1) (by omega) (by omega)

/-- 64 bytes of 61, so that a second block follows. -/
def twoBlocks : State := { abc with LEN := 64, NBLK := 2, MSG := fill 0 64 }

theorem witness_first_of_two_blocks : twoBlocks.BlocksOk ∧ twoBlocks.BlockReady ∧
    twoBlocks.blk.toNat + 1 < twoBlocks.NBLK.toNat := by
  refine ⟨⟨by decide, by decide, by decide⟩, fun q hq _ => ?_, by decide⟩
  have e : blockIndex twoBlocks q = q := by
    have : twoBlocks.blk.toNat = 0 := rfl
    simp [blockIndex, this]
  rw [e]
  exact ⟨hq, 0x61, fill_read 0 64 q (Nat.zero_le q) (by omega)⟩

/-- LdblkReadsOnlyItsBlock: two memories that differ at LEN, and a refused load. -/
theorem witness_same_block :
    (∀ q < 64, 64 * abc.blk.toNat + q < abc.LEN.toNat → abc.MSG.read (64 * abc.blk.toNat + q) =
      Memory.read [(0, 0x61), (1, 0x62), (2, 0x63), (3, 0xff)] (64 * abc.blk.toNat + q)) ∧
    goes .ldblk abc = true ∧ goes .ldblk { abc with MSG := [(0, 0x61), (1, 0x62), (2, 0x63), (3, 0xff)] } = true ∧
    exec .ldblk { abc with MSG := [] } = .refused .unwrittenMessageByte := by
  refine ⟨fun q _ h => ?_, by decide, by decide, rfl⟩
  have e : 64 * abc.blk.toNat + q = q := by
    have : abc.blk.toNat = 0 := rfl
    simp [this]
  have hl : abc.LEN.toNat = 3 := rfl
  rw [e] at h ⊢
  rw [hl] at h
  have : q = 0 ∨ q = 1 ∨ q = 2 := by omega
  obtain rfl | rfl | rfl := this <;> rfl

/-- LdblkRefusesMissingBytes: byte 2 beyond the memory, and byte 2 never written. -/
theorem witness_missing_bytes :
    (∀ r < 2, blockIndex { abc with MSG_BYTES := 2 } r < 2 ∧
      ∃ b, abc.MSG.read (blockIndex { abc with MSG_BYTES := 2 } r) = some b) ∧
    2 ≤ blockIndex { abc with MSG_BYTES := 2 } 2 ∧ blockIndex { abc with MSG_BYTES := 2 } 2 < abc.LEN.toNat ∧
    Memory.read [(0, 0x61), (1, 0x62)] (blockIndex abc 2) = none ∧ blockIndex abc 2 < abc.MSG_BYTES := by
  refine ⟨fun r hr => ?_, by decide, by decide, by decide, by decide⟩
  have : r = 0 ∨ r = 1 := by omega
  obtain rfl | rfl := this
  · exact ⟨by decide, 0x61, rfl⟩
  · exact ⟨by decide, 0x62, rfl⟩

/-- ExpandComputesItsWord at both ends. -/
theorem witness_expand_indices :
    ((14 : Fin 64).val + 2 = (16 : Fin 64).val ∧ (9 : Fin 64).val + 7 = 16 ∧ (1 : Fin 64).val + 15 = 16 ∧
      (0 : Fin 64).val + 16 = 16) ∧
    ((61 : Fin 64).val + 2 = (63 : Fin 64).val ∧ (56 : Fin 64).val + 7 = 63 ∧ (48 : Fin 64).val + 15 = 63 ∧
      (47 : Fin 64).val + 16 = 63) := by decide

/-- FeedforwardAccumulates, FinishPublishesTheDigest, the START statements and the DIGEST and DHEX statements. -/
theorem witness_flags :
    abc.blk.toNat + 1 < ({ abc with NBLK := 2 } : State).NBLK.toNat ∧ abc.NBLK.toNat ≤ abc.blk.toNat + 1 ∧
    abc.ERR = false ∧ abc.CAUSE = 0 ∧ abc.BUSY = true ∧ abc.DONE = false ∧ abcDone.BUSY = false ∧
    abcDone.DONE = true := by decide

/-- OnlyStartAndLengthWritesAct: CTRL with a reserved value, and the last register. -/
theorem witness_ignored_registers :
    (¬((0 : BitVec 5) = 0 ∧ (3 : Word) = 1) ∧ (0 : BitVec 5) ≠ 2 ∧ (0 : BitVec 5) ≠ 3) ∧
    (¬((31 : BitVec 5) = 0 ∧ (1 : Word) = 1) ∧ (31 : BitVec 5) ≠ 2 ∧ (31 : BitVec 5) ≠ 3) := by decide

/-- MsgwrStoresOneByte: the first byte at LEN while busy, the last byte of the memory, a byte below LEN when idle. -/
theorem witness_msgwr :
    (3 < abc.MSG_BYTES ∧ ¬(abc.BUSY = true ∧ 3 < abc.LEN.toNat)) ∧
    (63 < abc.MSG_BYTES ∧ ¬(abc.BUSY = true ∧ 63 < abc.LEN.toNat)) ∧
    (0 < abcDone.MSG_BYTES ∧ ¬(abcDone.BUSY = true ∧ 0 < abcDone.LEN.toNat)) := by decide

theorem witness_msgrd :
    2 < abc.MSG_BYTES ∧ abc.MSG.read 2 = some 0x63 ∧
    exec (.msgwr 0 0x41) abcDone = .next (abcDone.storeByte 0 0x41) ∧
    exec (.msgwr 1 0x42) (abcDone.storeByte 0 0x41) = .next ((abcDone.storeByte 0 0x41).storeByte 1 0x42) ∧
    (1 : BitVec 61) ≠ 0 := ⟨by decide, by decide, rfl, rfl, by decide⟩

/-- MessageTransactionsStop, each clause at its boundary. -/
theorem witness_message_stops :
    abc.MSG_BYTES ≤ (64 : BitVec 61).toNat ∧
    ((2 : BitVec 61).toNat < abc.MSG_BYTES ∧ abc.BUSY = true ∧ (2 : BitVec 61).toNat < abc.LEN.toNat) ∧
    ((3 : BitVec 61).toNat < abc.MSG_BYTES ∧ abc.MSG.read (3 : BitVec 61).toNat = none) := by decide

/-- EngineFrame, HostFrame, HostCannotDisturbAComputation, RegisterAccessesComplete: every operation completes. -/
theorem witness_every_operation_completes :
    ∀ i ∈ [Instr.pad, .init, .ldblk, .expand 16, .ldwork, .round 63, .feedfwd, .finish, .start, .nop, .rsvdctrl 2,
      .rdctrl, .rdstatus, .wrstatus 1, .rdmlenlo, .wrmlenlo 1, .rdmlenhi, .wrmlenhi 1, .rdrsvd 3, .wrrsvd 3 1,
      .rddigest 7, .wrdigest 7 1, .rddhex 15, .wrdhex 15 1, .msgwr 3 1, .msgrd 2], ∃ t, exec i abc = .next t := by
  have key : ∀ i ∈ [Instr.pad, .init, .ldblk, .expand 16, .ldwork, .round 63, .feedfwd, .finish, .start, .nop,
      .rsvdctrl 2, .rdctrl, .rdstatus, .wrstatus 1, .rdmlenlo, .wrmlenlo 1, .rdmlenhi, .wrmlenhi 1, .rdrsvd 3,
      .wrrsvd 3 1, .rddigest 7, .wrdigest 7 1, .rddhex 15, .wrdhex 15 1, .msgwr 3 1, .msgrd 2],
      goes i abc = true := by decide
  exact fun i hi => exists_next_of_goes (key i hi)

/-- StepRunsTheDecodedOperation: the three turns. -/
theorem witness_turns :
    decode (.seq abc.seq) = .ok .ldblk ∧ decode (.host (.regx (regSel true 0) 1)) = .ok .start ∧
    ({ abc with inputs := [startCommand] } : State).inputs = [.host (.regx (regSel true 0) 1)] ∧
    ({ abc with inputs := [.engine] } : State).inputs = [.engine] ∧ abc.inputs = [] := ⟨rfl, rfl, rfl, rfl, rfl⟩

/-- IdleAndStuckTurns: phase IDLE with index 0 and with index 1. -/
theorem witness_idle_and_stuck :
    abcDone.inputs = [] ∧ abcDone.seq = 0x000#10 ∧ (0x001#10 : BitVec 10) ≠ 0x000#10 ∧
    ∀ i, decode (.seq 0x001#10) ≠ .ok i := ⟨rfl, rfl, by decide, fun _ h => by cases h⟩

/-- SequencerFollowsTheGraph: the engine steps from every kind of word, at both ends of the loops; also where another
block follows and where PAD fails. -/
theorem witness_sequencer_steps :
    (∀ w ∈ [0x040#10, 0x080#10, 0x0c0#10, 0x110#10, 0x13e#10, 0x13f#10, 0x140#10, 0x180#10, 0x1be#10, 0x1bf#10,
      0x1c0#10, 0x200#10], stepRuns { abc with seq := w } (fun _ => true) = true) ∧
    stepRuns { abc with seq := 0x1c0#10, NBLK := 2 } (fun t => t.seq == 0x0c0#10) = true ∧
    stepRuns { abc with seq := 0x040#10, LEN := 0x2000000000000000 } (fun t => t.ERR) = true := by decide

/-- ResetEventLeaves and StartRacingTheEnd. -/
theorem witness_events :
    ({ abc with inputs := [.reset] } : State).inputs = .reset :: [] ∧
    abcFinish.seq = 0x200#10 ∧ abcFinish.BUSY = true ∧
    ({ abcFinish with inputs := [startCommand, .engine] } : State).inputs = startCommand :: .engine :: [] := by
  exact ⟨rfl, rfl, rfl, rfl⟩

/-- ComputationYieldsSha256 and ResultDependsOnTheMessageOnly: "abc" at PAD, after two different pasts. -/
theorem witness_computation :
    let s : State := { abc with seq := 0x040#10 }
    let t : State := { abc with seq := 0x040#10, H := Vector.replicate 8 7, NBLK := 9, blk := 4 }
    s.seq = 0x040#10 ∧ t.seq = 0x040#10 ∧ s.inputs = [] ∧ t.inputs = [] ∧ s.LEN = t.LEN ∧ s.LEN.toNat < 2 ^ 61 ∧
    s.BUSY = true ∧ t.BUSY = true ∧ s.MessageReady s.LEN.toNat ∧ t.MessageReady t.LEN.toNat ∧
    (∀ a < s.LEN.toNat, s.MSG.read a = t.MSG.read a) :=
  ⟨rfl, rfl, rfl, rfl, rfl, by decide, rfl, rfl, abc_messageReady, abc_messageReady, fun _ _ => rfl⟩

/-- DigestCommandReturnsTheHexDigest: "abc" from reset, with 64 bytes of memory. -/
theorem witness_digest_command :
    let s : State := { State.reset with
      MSG_BYTES := 64, inputs := digestCommand [0x61, 0x62, 0x63] (115 * ((3 + 72) / 64) + 3) ++ rdhex }
    s.seq = 0x000#10 ∧ s.BUSY = false ∧ [(0x61 : Byte), 0x62, 0x63].length < 2 ^ 61 ∧
    [(0x61 : Byte), 0x62, 0x63].length ≤ s.MSG_BYTES ∧
    s.inputs = digestCommand [0x61, 0x62, 0x63] (115 * (([(0x61 : Byte), 0x62, 0x63].length + 72) / 64) + 3) ++ rdhex :=
  ⟨rfl, rfl, by decide, by decide, rfl⟩

end Sys2Proof.Tests
end

section
/-! EXPAND (41_schedule.md R143): what the step writes, where it goes and what it leaves, each from the one lemma
`execExpand_cases` that says all the step can do. -/

namespace Sys2Proof.Machine

/-- The three additions of the recurrence discard their carries together: one reduction modulo 2^32 (R143, R170). -/
theorem expandWord_toNat (w2 w7 w15 w16 : Word) :
    (expandWord w2 w7 w15 w16).toNat =
      ((ssig1 w2).toNat + w7.toNat + (ssig0 w15).toNat + w16.toNat) % 2 ^ 32 := by
  simp only [expandWord, BitVec.toNat_add, Nat.mod_add_mod]

/-- No state stops EXPAND at an index that the table allows. -/
theorem execExpand_completes {i : Fin 64} (hi : 16 ≤ i.val) (s : State) : ∃ t, execExpand i s = .next t := by
  by_cases h63 : i.val < 63
  · exact ⟨_, by rw [execExpand, dif_pos hi, dif_pos h63]⟩
  · exact ⟨_, by rw [execExpand, dif_pos hi, dif_neg h63]⟩

/-- The schedule after EXPAND, with the four source words named by their own indices. -/
theorem execExpand_W {i k2 k7 k15 k16 : Fin 64} {s t : State} (h : execExpand i s = .next t)
    (h2 : k2.val + 2 = i.val) (h7 : k7.val + 7 = i.val) (h15 : k15.val + 15 = i.val) (h16 : k16.val + 16 = i.val) :
    t.W = s.W.set i.val (expandWord s.W[k2] s.W[k7] s.W[k15] s.W[k16]) := by
  obtain ⟨hi, w, hw, hsucc⟩ := execExpand_cases h
  have hword : w = expandWord s.W[k2] s.W[k7] s.W[k15] s.W[k16] := by
    simp only [hw, Nat.sub_eq_of_eq_add h2.symm, Nat.sub_eq_of_eq_add h7.symm, Nat.sub_eq_of_eq_add h15.symm,
      Nat.sub_eq_of_eq_add h16.symm, Fin.getElem_fin]
  rw [← hword]
  obtain ⟨j, -, rfl⟩ | ⟨-, rfl⟩ := hsucc
  · rfl
  · rfl

/-- The sequencer word after EXPAND, as a number: EXPAND i + 1, or LDWORK after the last index. -/
theorem execExpand_seq_toNat {i : Fin 64} {s t : State} (h : execExpand i s = .next t) :
    t.seq.toNat = if i.val < 63 then 0x100 + i.val + 1 else 0x140 := by
  obtain ⟨-, w, -, ⟨j, hj, rfl⟩ | ⟨hlast, rfl⟩⟩ := execExpand_cases h
  · have hlt : i.val < 63 := by omega
    rw [if_pos hlt, goto_seq, seqWord_toNat, hj]
    rfl
  · rw [if_neg (by omega), goto_seq]
    rfl

/-- EXPAND writes W and `seq` only. -/
theorem execExpand_frame {i : Fin 64} {s t : State} (h : execExpand i s = .next t) :
    t = { s with W := t.W, seq := t.seq } := by
  obtain ⟨-, w, -, ⟨j, -, rfl⟩ | ⟨-, rfl⟩⟩ := execExpand_cases h
  · rfl
  · rfl

/-- Settles O17: from an index of at least 16 EXPAND always completes; its word is the recurrence, whose sums reduce
once, and the write to W at `i` leaves every other word. -/
theorem expandComputesItsWord : Obligations.ExpandComputesItsWord := by
  unfold Obligations.ExpandComputesItsWord
  intro s i k2 k7 k15 k16 h2 h7 h15 h16
  obtain ⟨t, ht⟩ := execExpand_completes (i := i) (by omega) s
  have hW := execExpand_W ht h2 h7 h15 h16
  refine ⟨t, ht, ?_, fun k hk => ?_, execExpand_seq_toNat ht, execExpand_frame ht⟩
  · rw [← expandWord_toNat, hW, Fin.getElem_fin, Vector.getElem_set_self]
  · rw [hW, Fin.getElem_fin, Vector.getElem_set_ne _ _ (Fin.val_ne_of_ne hk.symm), Fin.getElem_fin]

end Sys2Proof.Machine
end

section
/-! ROUND and FEEDFWD (42_compress.md R161, R163): what each step writes, where it goes and what it leaves, from the
lemmas `execRound_cases` and `execFeedfwd_cases` that say all the steps can do. -/

namespace Sys2Proof.Machine

/-! ROUND -/

/-- Register a after a round is t1 + t2 modulo 2^32; the carries of the six inner sums go together (R161, R170). -/
theorem roundStep_a_toNat (k w : Word) (v : Work) :
    (roundStep k w v).a.toNat =
      (v.h.toNat + (bsig1 v.e).toNat + (ch v.e v.f v.g).toNat + k.toNat + w.toNat +
        ((bsig0 v.a).toNat + (maj v.a v.b v.c).toNat)) % 2 ^ 32 := by
  simp only [roundStep, BitVec.toNat_add, Nat.mod_add_mod, Nat.add_mod_mod]

/-- Register e after a round is d + t1 modulo 2^32 (R161, R170). -/
theorem roundStep_e_toNat (k w : Word) (v : Work) :
    (roundStep k w v).e.toNat =
      (v.d.toNat + (v.h.toNat + (bsig1 v.e).toNat + (ch v.e v.f v.g).toNat + k.toNat + w.toNat)) % 2 ^ 32 := by
  simp only [roundStep, BitVec.toNat_add, Nat.mod_add_mod, Nat.add_mod_mod]

/-- No state stops ROUND. -/
theorem execRound_completes (i : Fin 64) (s : State) : ∃ t, execRound i s = .next t := by
  by_cases h63 : i.val < 63
  · exact ⟨_, by rw [execRound, dif_pos h63]⟩
  · exact ⟨_, by rw [execRound, dif_neg h63]⟩

/-- The working registers after ROUND are those of one round, whatever comes next. -/
theorem execRound_V {i : Fin 64} {s t : State} (h : execRound i s = .next t) :
    t.V = roundStep roundK[i] s.W[i] s.V := by
  obtain ⟨j, -, rfl⟩ | ⟨-, rfl⟩ := execRound_cases h
  · rfl
  · rfl

/-- The sequencer word after ROUND, as a number: ROUND i + 1, or FEEDFWD after the last round. -/
theorem execRound_seq_toNat {i : Fin 64} {s t : State} (h : execRound i s = .next t) :
    t.seq.toNat = if i.val < 63 then 0x180 + i.val + 1 else 0x1c0 := by
  obtain ⟨j, hj, rfl⟩ | ⟨hlast, rfl⟩ := execRound_cases h
  · have hlt : i.val < 63 := by omega
    rw [if_pos hlt, goto_seq, seqWord_toNat, hj]
    rfl
  · rw [if_neg (by omega), goto_seq]
    rfl

/-- ROUND writes the working registers and `seq` only. -/
theorem execRound_frame {i : Fin 64} {s t : State} (h : execRound i s = .next t) :
    t = { s with V := t.V, seq := t.seq } := by
  obtain ⟨j, -, rfl⟩ | ⟨-, rfl⟩ := execRound_cases h
  · rfl
  · rfl

/-- Settles O19: ROUND always completes with the registers of `roundStep`; a and e are its two sums, each reduced once,
and the other six registers are moved. -/
theorem roundComputesTheRegisters : Obligations.RoundComputesTheRegisters := by
  unfold Obligations.RoundComputesTheRegisters
  intro s i
  obtain ⟨t, ht⟩ := execRound_completes i s
  have hseq := execRound_seq_toNat ht
  have hframe := execRound_frame ht
  have hV := execRound_V ht
  refine ⟨t, ht, ?sums, ?b, ?c, ?d, ?f, ?g, ?h, hseq, hframe⟩
  case sums =>
    rintro _ _ rfl rfl
    rw [hV]
    exact ⟨roundStep_a_toNat .., roundStep_e_toNat ..⟩
  case b | c | d | f | g | h => rw [hV]; rfl

/-! FEEDFWD -/

/-- Word `j` of the feed-forward is word `j` before plus the register at place `j` in the order a..h (R163). -/
theorem getElem_feedForward (h : Vector Word 8) (v : Work) (j : Fin 8) :
    (feedForward h v)[j] = h[j] + #v[v.a, v.b, v.c, v.d, v.e, v.f, v.g, v.h][j] := by
  fin_cases j <;> rfl

/-- No state stops FEEDFWD. -/
theorem execFeedfwd_completes (s : State) : ∃ t, execFeedfwd s = .next t := by
  by_cases hmore : s.blk.toNat + 1 < s.NBLK.toNat
  · exact ⟨_, by rw [execFeedfwd, if_pos hmore]⟩
  · exact ⟨_, by rw [execFeedfwd, if_neg hmore]⟩

/-- The Hash State after FEEDFWD is the feed-forward, whatever comes next. -/
theorem execFeedfwd_H {s t : State} (h : execFeedfwd s = .next t) : t.H = feedForward s.H s.V := by
  obtain ⟨-, rfl⟩ | ⟨-, rfl⟩ := execFeedfwd_cases h
  · rfl
  · rfl

/-- Where a block remains, FEEDFWD goes to LDBLK with the next block index, which does not wrap (R163, R174). -/
theorem execFeedfwd_next_block {s t : State} (h : execFeedfwd s = .next t) (hmore : s.blk.toNat + 1 < s.NBLK.toNat) :
    t.blk.toNat = s.blk.toNat + 1 ∧ t.seq = 0x0c0#10 := by
  obtain ⟨-, rfl⟩ | ⟨hlast, -⟩ := execFeedfwd_cases h
  · exact ⟨blk_succ_toNat hmore, rfl⟩
  · omega

/-- After the last block FEEDFWD goes to FINISH and keeps the block index (R163). -/
theorem execFeedfwd_last_block {s t : State} (h : execFeedfwd s = .next t) (hlast : s.NBLK.toNat ≤ s.blk.toNat + 1) :
    t.blk = s.blk ∧ t.seq = 0x200#10 := by
  obtain ⟨hmore, -⟩ | ⟨-, rfl⟩ := execFeedfwd_cases h
  · omega
  · exact ⟨rfl, rfl⟩

/-- FEEDFWD writes H, `blk` and `seq` only. -/
theorem execFeedfwd_frame {s t : State} (h : execFeedfwd s = .next t) :
    t = { s with H := t.H, blk := t.blk, seq := t.seq } := by
  obtain ⟨-, rfl⟩ | ⟨-, rfl⟩ := execFeedfwd_cases h
  · rfl
  · rfl

/-- Settles O20: FEEDFWD always completes; each word of H is one sum modulo 2^32, and the two successors are split by
the exact comparison of blk + 1 with NBLK. -/
theorem feedforwardAccumulates : Obligations.FeedforwardAccumulates := by
  unfold Obligations.FeedforwardAccumulates
  intro s
  obtain ⟨t, ht⟩ := execFeedfwd_completes s
  refine ⟨t, ht, fun j => ?_, execFeedfwd_next_block ht, execFeedfwd_last_block ht, execFeedfwd_frame ht⟩
  rw [execFeedfwd_H ht, getElem_feedForward, BitVec.toNat_add]

end Sys2Proof.Machine
end

section
/-! FINISH and the two views of the digest (43_formatter.md R180 to R183): what the step writes, and what a read of
DIGEST or DHEX answers once DONE is set. -/

namespace Sys2Proof.Machine

/-! The DHEX word and its characters -/

/-- BE32 as a number: its first byte is the most significant one (R10). -/
theorem be32_toNat (b0 b1 b2 b3 : Byte) :
    (be32 b0 b1 b2 b3).toNat = b0.toNat * 2 ^ 24 + b1.toNat * 2 ^ 16 + b2.toNat * 2 ^ 8 + b3.toNat := by
  have append_toNat {n : Nat} (x : BitVec n) (b : Byte) : (x ++ b).toNat = x.toNat * 2 ^ 8 + b.toNat := by
    rw [BitVec.toNat_append, ← Nat.shiftLeft_add_eq_or_of_lt b.isLt, Nat.shiftLeft_eq]
  rw [be32, append_toNat, append_toNat, append_toNat]
  omega

/-- BE32BYTE as a number (R10). -/
theorem be32Byte_toNat (w : Word) (k : Nat) : (be32Byte w k).toNat = w.toNat / 2 ^ (24 - 8 * k) % 2 ^ 8 := by
  rw [be32Byte, BitVec.extractLsb'_toNat, Nat.shiftRight_eq_div_pow]

/-- BE32BYTE takes the bytes out of BE32 in the order in which they went in (R10). -/
theorem be32Byte_be32 (b : Nat → Byte) {k : Nat} (hk : k < 4) : be32Byte (be32 (b 0) (b 1) (b 2) (b 3)) k = b k := by
  have h0 := (b 0).isLt
  have h1 := (b 1).isLt
  have h2 := (b 2).isLt
  have h3 := (b 3).isLt
  apply BitVec.eq_of_toNat_eq
  rw [be32Byte_toNat, be32_toNat]
  obtain rfl | rfl | rfl | rfl : k = 0 ∨ k = 1 ∨ k = 2 ∨ k = 3 := by omega
  all_goals omega

/-- Character `n` of HEX(H) as a list is c(n) (R182). -/
theorem hexString_getD (h : Vector Word 8) {n : Nat} (hn : n < 64) : (hexString h).getD n 0 = hexAt h ⟨n, hn⟩ := by
  rw [hexString, List.getD_eq_getElem?_getD, List.getElem?_ofFn, dif_pos hn, Option.getD_some]

/-- DHEXq is BE32 of the four characters of HEX(H) from 4q on (R183). -/
theorem dhexWord_eq_be32_hexString (h : Vector Word 8) (q : Fin 16) :
    dhexWord h q = be32 ((hexString h).getD (4 * q.val + 0) 0) ((hexString h).getD (4 * q.val + 1) 0)
      ((hexString h).getD (4 * q.val + 2) 0) ((hexString h).getD (4 * q.val + 3) 0) := by
  have hq := q.isLt
  rw [hexString_getD h (by omega), hexString_getD h (by omega), hexString_getD h (by omega),
    hexString_getD h (by omega)]
  rfl

/-- Byte `k` of DHEXq is character 4q + k of HEX(H) (R183). -/
theorem be32Byte_dhexWord (h : Vector Word 8) (q : Fin 16) {k : Nat} (hk : k < 4) :
    be32Byte (dhexWord h q) k = (hexString h).getD (4 * q.val + k) 0 := by
  rw [dhexWord_eq_be32_hexString]
  exact be32Byte_be32 (fun i => (hexString h).getD (4 * q.val + i) 0) hk

/-! The reads once DONE is set -/

/-- With DONE set RDDIGEST j answers H[j] (R198). -/
theorem execRddigest_of_done {s : State} (hd : s.DONE = true) (j : Fin 8) :
    execRddigest j s = .next (s.respond (.word s.H[j])) := by
  rw [execRddigest, if_pos hd]

/-- With DONE set RDDHEX q answers DHEXq (R199). -/
theorem execRddhex_of_done {s : State} (hd : s.DONE = true) (q : Fin 16) :
    execRddhex q s = .next (s.respond (.word (dhexWord s.H q))) := by
  rw [execRddhex, if_pos hd]

/-! FINISH -/

/-- STATUS of a computation that has finished, with no failure standing, has DONE as its only bit (R35). -/
theorem status_goto_flagsFinished {s : State} (he : s.ERR = false) (hc : s.CAUSE = 0) (p : Phase) (i : Fin 64) :
    (s.flagsFinished.goto p i).status = 0x00000002 := by
  simp [State.status, he, hc]

/-- Settles O21: FINISH writes the two flags and `seq`; with DONE then set both views answer from H, which it leaves. -/
theorem finishPublishesTheDigest : Obligations.FinishPublishesTheDigest := by
  unfold Obligations.FinishPublishesTheDigest
  intro s
  have hdone : (s.flagsFinished.goto .idle 0).DONE = true := by rw [goto_DONE, flagsFinished_DONE]
  refine ⟨s.flagsFinished.goto .idle 0, exec_finish s, rfl, fun he hc => status_goto_flagsFinished he hc _ _, ?digest,
    ?dhex⟩
  case digest => exact execRddigest_of_done hdone
  case dhex => exact fun q => ⟨dhexWord s.H q, execRddhex_of_done hdone q, fun _ hk => be32Byte_dhexWord s.H q hk⟩

end Sys2Proof.Machine
end

section
/-! The register transactions and commands of the host (44_host_interface.md R191 to R197, R200): which instruction a
register number selects, what START and the length writes put where, and what the reads answer. -/

namespace Sys2Proof.Machine

/-- Two bit fields side by side, as a number. -/
theorem toNat_append_eq_mul_add {m n : Nat} (x : BitVec m) (y : BitVec n) :
    (x ++ y).toNat = x.toNat * 2 ^ n + y.toNat := by
  rw [BitVec.toNat_append, ← Nat.shiftLeft_add_eq_or_of_lt y.isLt, Nat.shiftLeft_eq]

/-! Register writes by number -/

/-- Bit 5 of the selector {w, rn} is w (R98). -/
theorem getLsbD_regSel (w : Bool) (rn : BitVec 5) : (regSel w rn).getLsbD 5 = w := by
  rw [regSel, BitVec.getLsbD_append, if_neg (by decide)]
  cases w <;> rfl

/-- Bits 4:0 of the selector {w, rn} are rn (R98). -/
theorem extractLsb'_regSel (w : Bool) (rn : BitVec 5) : (regSel w rn).extractLsb' 0 5 = rn :=
  BitVec.extractLsb'_append_eq_right

/-- A register write decodes by its register number and its data. -/
theorem decode_regWrite (rn : BitVec 5) (data : Word) : decode (regWrite rn data) = .ok (decodeRegWrite rn data) := by
  rw [regWrite, decode, decodeHost, getLsbD_regSel, extractLsb'_regSel, if_pos rfl]

/-- A CTRL word other than START changes nothing: it is NOP or reserved (R96, R105, R192). -/
theorem exec_decodeCtrl_of_ne_one {data : Word} (h : data ≠ 1) (s : State) : exec (decodeCtrl data) s = .next s := by
  rw [decodeCtrl, if_neg h]
  split
  · exact exec_nop s
  · exact exec_rsvdctrl data s

/-- A register write that is neither START nor to MLEN selects an operation that ignores it, range by range of the
register numbers (R101). -/
theorem exec_decodeRegWrite_of_ignored {rn : BitVec 5} {data : Word} (hstart : ¬(rn = 0 ∧ data = 1)) (hlo : rn ≠ 2)
    (hhi : rn ≠ 3) (s : State) : exec (decodeRegWrite rn data) s = .next s := by
  rw [decodeRegWrite, if_neg hlo, if_neg hhi]
  split_ifs with hctrl hstatus hrsvd hdigest
  · exact exec_decodeCtrl_of_ne_one (fun hdata => hstart ⟨hctrl, hdata⟩) s
  · exact exec_wrstatus data s
  · exact exec_wrrsvd _ data s
  · exact exec_wrdigest _ data s
  · exact exec_wrdhex _ data s

/-- Settles O27: the write decodes to the operation of its register number, and that operation ignores it. -/
theorem onlyStartAndLengthWritesAct : Obligations.OnlyStartAndLengthWritesAct := by
  unfold Obligations.OnlyStartAndLengthWritesAct
  intro rn data s hstart hlo hhi
  exact ⟨decodeRegWrite rn data, decode_regWrite rn data, exec_decodeRegWrite_of_ignored hstart hlo hhi s⟩

/-! The halves of MLEN -/

/-- MLEN[31:0] as a number (R36). -/
theorem mlenLo_toNat (mlen : BitVec 64) : (mlenLo mlen).toNat = mlen.toNat % 2 ^ 32 := by
  rw [mlenLo, BitVec.extractLsb'_toNat, Nat.shiftRight_zero]

/-- MLEN[63:32] as a number (R36): no reduction, since MLEN has only 64 bits. -/
theorem mlenHi_toNat (mlen : BitVec 64) : (mlenHi mlen).toNat = mlen.toNat / 2 ^ 32 := by
  have hlt : mlen.toNat / 2 ^ 32 < 2 ^ 32 := Nat.div_lt_of_lt_mul mlen.isLt
  rw [mlenHi, BitVec.extractLsb'_toNat, Nat.shiftRight_eq_div_pow, Nat.mod_eq_of_lt hlt]

/-- The low half replaced: the high half stays in its place above the data (R197). -/
theorem withMlenLo_toNat (mlen : BitVec 64) (data : Word) :
    (withMlenLo mlen data).toNat = mlen.toNat / 2 ^ 32 * 2 ^ 32 + data.toNat := by
  rw [← mlenHi_toNat]
  exact toNat_append_eq_mul_add (mlenHi mlen) data

/-- The high half replaced: the low half stays in its place below the data (R197). -/
theorem withMlenHi_toNat (mlen : BitVec 64) (data : Word) :
    (withMlenHi mlen data).toNat = data.toNat * 2 ^ 32 + mlen.toNat % 2 ^ 32 := by
  rw [← mlenLo_toNat]
  exact toNat_append_eq_mul_add data (mlenLo mlen)

/-- Settles O31: a write keeps the half that it does not replace, a read answers its half, by arithmetic. -/
theorem lengthRegisterHalves : Obligations.LengthRegisterHalves := by
  unfold Obligations.LengthRegisterHalves
  intro s data
  refine ⟨?wrlo, ?wrhi, ?rdlo, ?rdhi⟩
  case wrlo => exact ⟨s.setMLEN (withMlenLo s.MLEN data), exec_wrmlenlo data s, rfl, withMlenLo_toNat s.MLEN data⟩
  case wrhi => exact ⟨s.setMLEN (withMlenHi s.MLEN data), exec_wrmlenhi data s, rfl, withMlenHi_toNat s.MLEN data⟩
  case rdlo => exact ⟨mlenLo s.MLEN, exec_rdmlenlo s, mlenLo_toNat s.MLEN⟩
  case rdhi => exact ⟨mlenHi s.MLEN, exec_rdmlenhi s, mlenHi_toNat s.MLEN⟩

/-! START -/

/-- START is accepted in every state that is not busy (R191). -/
theorem execStart_of_not_busy {s : State} (h : s.BUSY = false) : execStart s = .next s.acceptStart := by
  simp [execStart, h]

/-- START is ignored in every busy state (R193). -/
theorem execStart_of_busy {s : State} (h : s.BUSY = true) : execStart s = .next s := by
  rw [execStart, if_pos h]

/-- STATUS after an accepted START has BUSY as its only bit (R35). -/
theorem status_acceptStart (s : State) : s.acceptStart.status = 0x00000001 := by
  simp [State.status]

/-- Settles O25: the busy branch of START. -/
theorem startWhileBusyIsIgnored : Obligations.StartWhileBusyIsIgnored := by
  unfold Obligations.StartWhileBusyIsIgnored
  exact fun _ hbusy => execStart_of_busy hbusy

/-- Settles O24: the two branches of START, split on BUSY. -/
theorem startBeginsAComputation : Obligations.StartBeginsAComputation := by
  unfold Obligations.StartBeginsAComputation
  exact fun s => ⟨fun hidle => ⟨s.acceptStart, execStart_of_not_busy hidle, rfl, status_acceptStart s⟩,
    execStart_of_busy⟩

/-! CTRL, the reserved registers and STATUS -/

/-- Settles O28: both reads answer 0 and a reserved write is ignored, in every state. -/
theorem commandAndReservedRegistersReadZero : Obligations.CommandAndReservedRegistersReadZero := by
  unfold Obligations.CommandAndReservedRegistersReadZero
  exact fun s r data => ⟨exec_rdctrl s, exec_rdrsvd r s, exec_wrrsvd r data s⟩

/-- STATUS as a number: CAUSE from bit 4, bit 3 clear, then ERR, DONE and BUSY at bits 2, 1 and 0 (R35). -/
theorem status_toNat (s : State) :
    s.status.toNat = s.CAUSE.toNat * 16 + s.ERR.toNat * 4 + s.DONE.toNat * 2 + s.BUSY.toNat := by
  simp only [State.status, toNat_append_eq_mul_add, BitVec.toNat_ofBool, BitVec.ofNat_eq_ofNat, BitVec.toNat_zero]
  omega

/-- Settles O29: the word answered is STATUS, whose bit places are `status_toNat`. -/
theorem statusReadReturnsTheFlags : Obligations.StatusReadReturnsTheFlags := by
  unfold Obligations.StatusReadReturnsTheFlags
  exact fun s => ⟨s.status, exec_rdstatus s, status_toNat s⟩

end Sys2Proof.Machine
end

section
/-! The one exception (60_exceptions.md R224): what taking InputOverflow writes, what it leaves, and the STATUS it
publishes. -/

namespace Sys2Proof.Machine

/-- Trap entry writes the four flag fields and `seq`, and keeps every other field (R224). -/
theorem raiseInputOverflow_frame (s : State) : s.raiseInputOverflow =
    { s with ERR := true, CAUSE := 1, BUSY := false, DONE := false, seq := 0x000#10 } := by
  have hidle : seqWord .idle 0 = 0x000#10 := by decide
  rw [State.raiseInputOverflow, State.goto, hidle, State.flagsFailed]

/-- STATUS after the exception has CAUSE = 1 and ERR as its only set bits (R35). -/
theorem status_raiseInputOverflow (s : State) : s.raiseInputOverflow.status = 0x00000014 := by
  simp [State.status]

/-- Settles O12: at such a length PAD takes its exception branch, whose end state is `raiseInputOverflow`. -/
theorem padTakesInputOverflow : Obligations.PadTakesInputOverflow := by
  unfold Obligations.PadTakesInputOverflow
  intro s hlen
  have hexec : exec .pad s = .next s.raiseInputOverflow := by rw [exec_pad, execPad_overflow hlen]
  exact ⟨s.raiseInputOverflow, hexec, raiseInputOverflow_frame s, status_raiseInputOverflow s⟩

end Sys2Proof.Machine
end

section
/-! The decoder and the encoder (30_encoding.md R96 to R101): the words of each format take apart into their fields, a
decoded word is the encoding of what it decodes to, and the table of sequencer words by value. -/

namespace Sys2Proof

open Sys2Proof.Machine

/-! Register transactions -/

/-- A register read decodes by its register number. -/
theorem decode_regRead (rn : BitVec 5) : decode (regRead rn) = .ok (decodeRegRead rn) := by
  rw [regRead, decode, decodeHost, getLsbD_regSel, extractLsb'_regSel, if_neg Bool.false_ne_true]

/-- Every selector is {w, rn} (R98). -/
theorem regSel_of_fields (sel : BitVec 6) : regSel (sel.getLsbD 5) (sel.extractLsb' 0 5) = sel := by
  revert sel
  decide

/-- The CTRL operations are encoded by the data word they were read from (R96). -/
theorem encode_decodeCtrl (data : Word) : encode (decodeCtrl data) = regWrite 0 data := by
  rw [decodeCtrl]
  split_ifs with hstart hnop
  · rw [hstart]; rfl
  · rw [hnop]; rfl
  · rfl

/-- A CTRL word decodes to NOP, to START, or to a reserved write whose data is neither (R105). -/
theorem decodeCtrl_wf (data : Word) : (decodeCtrl data).wf = true := by
  rw [decodeCtrl]
  split_ifs with hstart hnop
  · rfl
  · rfl
  · simpa [Instr.wf] using And.intro hnop hstart

/-- Register numbers 4 to 7 are 4 + rr, 8 to 15 are 8 + jjj, 16 to 31 are 16 + qqqq (R101). -/
theorem ofNat_rnLow (rn : BitVec 5) :
    (¬rn < 4 → rn < 8 → BitVec.ofNat 5 (4 + (rnLow 4 rn (by decide)).val) = rn) ∧
    (¬rn < 8 → rn < 16 → BitVec.ofNat 5 (8 + (rnLow 8 rn (by decide)).val) = rn) ∧
    (¬rn < 16 → BitVec.ofNat 5 (16 + (rnLow 16 rn (by decide)).val) = rn) := by
  revert rn
  decide

/-- A register number that is none of the first four is at least 4. -/
theorem not_lt_four {rn : BitVec 5} (h0 : rn ≠ 0) (h1 : rn ≠ 1) (h2 : rn ≠ 2) (h3 : rn ≠ 3) : ¬rn < 4 := by
  revert rn
  decide

/-- A register read is encoded by the register number it was read from. -/
theorem encode_decodeRegRead (rn : BitVec 5) : encode (decodeRegRead rn) = regRead rn := by
  revert rn
  decide

theorem decodeRegRead_wf (rn : BitVec 5) : (decodeRegRead rn).wf = true := by
  revert rn
  decide

/-- A register write is encoded by the register number and the data it was read from. -/
theorem encode_decodeRegWrite (rn : BitVec 5) (data : Word) : encode (decodeRegWrite rn data) = regWrite rn data := by
  obtain ⟨hrsvd, hdigest, hdhex⟩ := ofNat_rnLow rn
  rw [decodeRegWrite]
  split_ifs with h0 h1 h2 h3 h8 h16
  · rw [h0, encode_decodeCtrl]
  · rw [h1]; rfl
  · rw [h2]; rfl
  · rw [h3]; rfl
  · rw [encode, hrsvd (not_lt_four h0 h1 h2 h3) h8]
  · rw [encode, hdigest h8 h16]
  · rw [encode, hdhex h16]

theorem decodeRegWrite_wf (rn : BitVec 5) (data : Word) : (decodeRegWrite rn data).wf = true := by
  rw [decodeRegWrite]
  split_ifs
  · exact decodeCtrl_wf data
  all_goals rfl

/-! Message transactions -/

theorem getLsbD_msgSel (w : Bool) (addr : BitVec 61) : (BitVec.ofBool w ++ addr).getLsbD 61 = w := by
  rw [BitVec.getLsbD_append, if_neg (by decide)]
  cases w <;> rfl

theorem extractLsb'_msgSel (w : Bool) (addr : BitVec 61) : (BitVec.ofBool w ++ addr).extractLsb' 0 61 = addr :=
  BitVec.extractLsb'_append_eq_right

/-- Every selector is {w, addr} (R99). -/
theorem msgSel_of_fields (sel : BitVec 62) : BitVec.ofBool (sel.getLsbD 61) ++ sel.extractLsb' 0 61 = sel := by
  apply BitVec.eq_of_getLsbD_eq
  intro i hi
  rw [BitVec.getLsbD_append]
  split_ifs with hlow
  · simp [hlow]
  · obtain rfl : i = 61 := by omega
    simp

/-! Both directions -/

/-- Settles O2: format by format, the fields that the encoder puts side by side are read back. -/
theorem decodeEncodeRoundTrip : Obligations.DecodeEncodeRoundTrip := by
  unfold Obligations.DecodeEncodeRoundTrip
  intro i hwf
  cases i with
  | pad => exact decode_seq_pad
  | init => exact decode_seq_init
  | ldblk => exact decode_seq_ldblk
  | expand i => exact decode_seq_expand (of_decide_eq_true hwf)
  | ldwork => exact decode_seq_ldwork
  | round i => exact decode_seq_round i
  | feedfwd => exact decode_seq_feedfwd
  | finish => exact decode_seq_finish
  | start | nop | rdctrl | rdstatus | rdmlenlo | rdmlenhi => rfl
  | rsvdctrl data =>
    simp only [Instr.wf, Bool.and_eq_true, bne_iff_ne] at hwf
    obtain ⟨hnop, hstart⟩ := hwf
    rw [encode, decode_regWrite, decodeRegWrite, if_pos rfl, decodeCtrl, if_neg hstart, if_neg hnop]
  | wrstatus data | wrmlenlo data | wrmlenhi data => rw [encode, decode_regWrite]; rfl
  | rdrsvd r => rw [encode, decode_regRead]; fin_cases r <;> rfl
  | wrrsvd r data => rw [encode, decode_regWrite]; fin_cases r <;> rfl
  | rddigest j => rw [encode, decode_regRead]; fin_cases j <;> rfl
  | wrdigest j data => rw [encode, decode_regWrite]; fin_cases j <;> rfl
  | rddhex q => rw [encode, decode_regRead]; fin_cases q <;> rfl
  | wrdhex q data => rw [encode, decode_regWrite]; fin_cases q <;> rfl
  | msgwr addr byte => rw [encode, decode, decodeHost, getLsbD_msgSel, extractLsb'_msgSel, if_pos rfl]
  | msgrd addr => rw [encode, decode, decodeHost, getLsbD_msgSel, extractLsb'_msgSel, if_neg Bool.false_ne_true]

/-- A sequencer word that decodes is the encoding of its micro-operation, which is well formed. -/
theorem encode_of_decodeSeq {w : BitVec 10} {i : Instr} (h : decodeSeq w = .ok i) :
    i.wf = true ∧ encode i = .seq w := by
  obtain ⟨rfl, rfl⟩ | ⟨rfl, rfl⟩ | ⟨rfl, rfl⟩ | ⟨k, hk, rfl, rfl⟩ | ⟨rfl, rfl⟩ | ⟨k, rfl, rfl⟩ | ⟨rfl, rfl⟩ |
    ⟨rfl, rfl⟩ := decodeSeq_cases h
  case inr.inr.inr.inl => exact ⟨decide_eq_true hk, rfl⟩
  all_goals exact ⟨rfl, rfl⟩

/-- Settles O3: sequencer words through the inversion of the decoder, the host's words by their fields. -/
theorem eachWordHasOneMeaning : Obligations.EachWordHasOneMeaning := by
  unfold Obligations.EachWordHasOneMeaning
  refine ⟨fun w i h => ?seq, fun sel data => ?regx, fun sel byte => ?msgx⟩
  case seq =>
    obtain ⟨hwf, hencode⟩ := encode_of_decodeSeq h
    exact ⟨hwf, decodeSeq_isEngine h, hencode⟩
  case regx =>
    refine ⟨_, rfl, ?_, decodeHost_isEngine _, ?_⟩
    · rw [decodeHost]
      split_ifs
      · exact decodeRegWrite_wf _ _
      · exact decodeRegRead_wf _
    · have hsel := regSel_of_fields sel
      rw [decodeHost]
      split_ifs with hw
      · rw [encode_decodeRegWrite, regWrite, ← hw, hsel]
      · rw [Bool.not_eq_true] at hw
        rw [encode_decodeRegRead, regRead, ← hw, hsel]
  case msgx =>
    have hsel := msgSel_of_fields sel
    refine ⟨_, rfl, ?_, decodeHost_isEngine _, ?_⟩
    · rw [decodeHost]
      split_ifs <;> rfl
    · rw [decodeHost]
      split_ifs with hw
      · rw [encode, ← hw, hsel]
      · rw [Bool.not_eq_true] at hw
        rw [encode, ← hw, hsel]

/-! The table of sequencer words -/

/-- A word with phase field `p` and index field `k` is a table word exactly when both fields are that word's. -/
theorem eq_seqWord_iff {w : BitVec 10} {p k : Nat} (hk : k < 64) (hw : w.toNat = 64 * p + k) (q : Phase)
    (i : Fin 64) : w = seqWord q i ↔ p = q.code.toNat ∧ i.val = k := by
  have hi := i.isLt
  rw [← BitVec.toNat_inj, seqWord_toNat, hw]
  omega

/-- A sequencer word decodes to a well-formed micro-operation exactly when it is its encoding. -/
theorem decode_seq_eq_ok_iff {w v : BitVec 10} {i : Instr} (hwf : i.wf = true) (hencode : encode i = .seq v) :
    decode (.seq w) = .ok i ↔ w = v := by
  constructor
  · intro h
    obtain ⟨-, hw⟩ := encode_of_decodeSeq h
    exact Code.seq.inj (hw.symm.trans hencode)
  · rintro rfl
    rw [← hencode]
    exact decodeEncodeRoundTrip i hwf

/-- EXPAND is selected by its words from index 16 on only (R106). -/
theorem decode_seq_eq_expand_iff {w : BitVec 10} {i : Fin 64} :
    decode (.seq w) = .ok (.expand i) ↔ 16 ≤ i.val ∧ w = seqWord .expand i := by
  constructor
  · intro h
    obtain ⟨hwf, hw⟩ := encode_of_decodeSeq h
    exact ⟨of_decide_eq_true hwf, (Code.seq.inj hw).symm⟩
  · rintro ⟨hi, rfl⟩
    exact decode_seq_expand hi

/-- Which fields a word that selects a micro-operation has. -/
theorem exists_decode_seq_iff {w : BitVec 10} {p k : Nat} (hk : k < 64) (hw : w.toNat = 64 * p + k) :
    (∃ i, decode (.seq w) = .ok i) ↔
      (p = 4 ∧ 16 ≤ k) ∨ p = 6 ∨ (k = 0 ∧ (p = 1 ∨ p = 2 ∨ p = 3 ∨ p = 5 ∨ p = 7 ∨ p = 8)) := by
  have fields := eq_seqWord_iff hk hw
  constructor
  · rintro ⟨i, hi⟩
    obtain ⟨h, -⟩ | ⟨h, -⟩ | ⟨h, -⟩ | ⟨j, hj, h, -⟩ | ⟨h, -⟩ | ⟨j, h, -⟩ | ⟨h, -⟩ | ⟨h, -⟩ := decodeSeq_cases hi
    all_goals
      obtain ⟨hp, hidx⟩ := (fields _ _).mp h
      simp [Phase.code] at hp hidx
      omega
  · rintro (⟨rfl, h16⟩ | rfl | ⟨rfl, rfl | rfl | rfl | rfl | rfl | rfl⟩)
    · exact ⟨.expand ⟨k, hk⟩, decode_seq_eq_expand_iff.mpr ⟨h16, (fields _ _).mpr ⟨rfl, rfl⟩⟩⟩
    · exact ⟨.round ⟨k, hk⟩, (decode_seq_eq_ok_iff rfl rfl).mpr ((fields _ _).mpr ⟨rfl, rfl⟩)⟩
    · exact ⟨.pad, (decode_seq_eq_ok_iff rfl rfl).mpr ((fields _ _).mpr ⟨rfl, rfl⟩)⟩
    · exact ⟨.init, (decode_seq_eq_ok_iff rfl rfl).mpr ((fields _ _).mpr ⟨rfl, rfl⟩)⟩
    · exact ⟨.ldblk, (decode_seq_eq_ok_iff rfl rfl).mpr ((fields _ _).mpr ⟨rfl, rfl⟩)⟩
    · exact ⟨.ldwork, (decode_seq_eq_ok_iff rfl rfl).mpr ((fields _ _).mpr ⟨rfl, rfl⟩)⟩
    · exact ⟨.feedfwd, (decode_seq_eq_ok_iff rfl rfl).mpr ((fields _ _).mpr ⟨rfl, rfl⟩)⟩
    · exact ⟨.finish, (decode_seq_eq_ok_iff rfl rfl).mpr ((fields _ _).mpr ⟨rfl, rfl⟩)⟩

/-- A word is an error of the decoder exactly when it decodes to nothing. -/
theorem exists_decode_error_iff (c : Code) : (∃ e, decode c = .error e) ↔ ¬∃ i, decode c = .ok i := by
  cases decode c <;> simp

/-- Settles O4: a word selects a micro-operation exactly when it is its encoding, and a word is determined by its two
fields. -/
theorem sequencerWordTable : Obligations.SequencerWordTable := by
  unfold Obligations.SequencerWordTable
  intro w p k hk hw
  have plain (q : Phase) : w = seqWord q 0 ↔ p = q.code.toNat ∧ k = 0 :=
    (eq_seqWord_iff hk hw q 0).trans (and_congr_right fun _ => eq_comm)
  refine ⟨?pad, ?init, ?ldblk, fun i => ?expand, ?ldwork, fun i => ?round, ?feedfwd, ?finish, ?error⟩
  case pad => exact (decode_seq_eq_ok_iff rfl rfl).trans (plain .pad)
  case init => exact (decode_seq_eq_ok_iff rfl rfl).trans (plain .init)
  case ldblk => exact (decode_seq_eq_ok_iff rfl rfl).trans (plain .ldblk)
  case ldwork => exact (decode_seq_eq_ok_iff rfl rfl).trans (plain .ldwork)
  case feedfwd => exact (decode_seq_eq_ok_iff rfl rfl).trans (plain .feedfwd)
  case finish => exact (decode_seq_eq_ok_iff rfl rfl).trans (plain .finish)
  case round => exact (decode_seq_eq_ok_iff rfl rfl).trans (eq_seqWord_iff hk hw .round i)
  case expand =>
    rw [decode_seq_eq_expand_iff, eq_seqWord_iff hk hw]
    constructor
    · rintro ⟨h16, hp, rfl⟩
      exact ⟨hp, h16, rfl⟩
    · rintro ⟨hp, h16, rfl⟩
      exact ⟨h16, hp, rfl⟩
  case error =>
    rw [exists_decode_error_iff, exists_decode_seq_iff hk hw]
    omega

/-- Settles O1: the words are literals, which the decoder evaluates. -/
theorem sampleWordsDecode : Obligations.SampleWordsDecode := by
  unfold Obligations.SampleWordsDecode
  decide

end Sys2Proof
end

section
/-! The engine's micro-operations as one relation: every way a micro-operation can end, and that the relation is what
`exec` does. The invariants below are proved by cases on it. -/

namespace Sys2Proof.Machine

/-- The schedule with the word that EXPAND i derives (41_schedule.md R143). -/
def State.expandedSchedule (s : State) (i : Fin 64) : Vector Word 64 :=
  s.W.set i.val (expandWord (s.W[i.val - 2]'(by omega)) (s.W[i.val - 7]'(by omega)) (s.W[i.val - 15]'(by omega))
    (s.W[i.val - 16]'(by omega)))

/-- `MicroStep i s t`: the micro-operation `i` takes `s` to `t`. A constructor for each way out. -/
inductive MicroStep : Instr → State → State → Prop where
  | padOverflow {s : State} (hlen : 2 ^ 61 ≤ s.LEN.toNat) : MicroStep .pad s s.raiseInputOverflow
  | padAccept {s : State} (hlen : s.LEN.toNat < 2 ^ 61) :
    MicroStep .pad s ((s.setBlocks (blockCount s.LEN) 0).goto .init 0)
  | init {s : State} : MicroStep .init s ((s.setH initIV).goto .ldblk 0)
  | ldblk {s : State} (hready : s.BlockReady) : MicroStep .ldblk s ((s.setW (loadedSchedule s)).goto .expand 16)
  | expandNext {s : State} {i j : Fin 64} (hi : 16 ≤ i.val) (hj : j.val = i.val + 1) :
    MicroStep (.expand i) s ((s.setW (s.expandedSchedule i)).goto .expand j)
  | expandLast {s : State} {i : Fin 64} (hi : i.val = 63) :
    MicroStep (.expand i) s ((s.setW (s.expandedSchedule i)).goto .ldwork 0)
  | ldwork {s : State} : MicroStep .ldwork s ((s.setV (workOf s.H)).goto .round 0)
  | roundNext {s : State} {i j : Fin 64} (hj : j.val = i.val + 1) :
    MicroStep (.round i) s ((s.setV (roundStep roundK[i] s.W[i] s.V)).goto .round j)
  | roundLast {s : State} {i : Fin 64} (hi : i.val = 63) :
    MicroStep (.round i) s ((s.setV (roundStep roundK[i] s.W[i] s.V)).goto .feedfwd 0)
  | feedfwdNext {s : State} (hmore : s.blk.toNat + 1 < s.NBLK.toNat) :
    MicroStep .feedfwd s (((s.setH (feedForward s.H s.V)).setBlk (s.blk + 1)).goto .ldblk 0)
  | feedfwdLast {s : State} (hlast : s.NBLK.toNat ≤ s.blk.toNat + 1) :
    MicroStep .feedfwd s ((s.setH (feedForward s.H s.V)).goto .finish 0)
  | finish {s : State} : MicroStep .finish s (s.flagsFinished.goto .idle 0)

/-- A micro-operation that answers a next state ends in one of the ways `MicroStep` lists. -/
theorem microStep_of_exec {i : Instr} {s t : State} (hi : i.isEngine = true) (h : exec i s = .next t) :
    MicroStep i s t := by
  cases i with
  | pad =>
    obtain ⟨hlen, rfl⟩ | ⟨hlen, rfl⟩ := execPad_cases h
    · exact .padOverflow hlen
    · exact .padAccept hlen
  | init => obtain rfl : _ = t := Host.Outcome.next.inj h; exact .init
  | ldblk => obtain ⟨hready, rfl⟩ := execLdblk_cases h; exact .ldblk hready
  | expand k =>
    obtain ⟨hk, w, rfl, ⟨j, hj, rfl⟩ | ⟨hlast, rfl⟩⟩ := execExpand_cases h
    · exact .expandNext hk hj
    · exact .expandLast hlast
  | ldwork => obtain rfl : _ = t := Host.Outcome.next.inj h; exact .ldwork
  | round k =>
    obtain ⟨j, hj, rfl⟩ | ⟨hlast, rfl⟩ := execRound_cases h
    · exact .roundNext hj
    · exact .roundLast hlast
  | feedfwd =>
    obtain ⟨hmore, rfl⟩ | ⟨hlast, rfl⟩ := execFeedfwd_cases h
    · exact .feedfwdNext hmore
    · exact .feedfwdLast hlast
  | finish => obtain rfl : _ = t := Host.Outcome.next.inj h; exact .finish
  | _ => exact absurd hi Bool.false_ne_true

/-- Each way out that `MicroStep` lists is what `exec` does. -/
theorem exec_of_microStep {i : Instr} {s t : State} (h : MicroStep i s t) : exec i s = .next t := by
  cases h with
  | padOverflow hlen => exact execPad_overflow hlen
  | padAccept hlen => exact execPad_accept hlen
  | init | ldwork | finish => rfl
  | ldblk hready => exact execLdblk_ready hready
  | @expandNext _ i j hi hj =>
    have hlt : i.val < 63 := by omega
    obtain rfl : ⟨i.val + 1, Nat.succ_lt_succ hlt⟩ = j := Fin.ext hj.symm
    rw [exec_expand, execExpand, dif_pos hi, dif_pos hlt]
    rfl
  | expandLast hi =>
    rw [exec_expand, execExpand, dif_pos (by omega), dif_neg (by omega)]
    rfl
  | @roundNext _ i j hj =>
    have hlt : i.val < 63 := by omega
    obtain rfl : ⟨i.val + 1, Nat.succ_lt_succ hlt⟩ = j := Fin.ext hj.symm
    rw [exec_round, execRound, dif_pos hlt]
  | roundLast hi => rw [exec_round, execRound, dif_neg (by omega)]
  | feedfwdNext hmore => rw [exec_feedfwd, execFeedfwd, if_pos hmore]
  | feedfwdLast hlast => rw [exec_feedfwd, execFeedfwd, if_neg (by omega)]

/-- A step of the machine, once more, with the engine's turn as a micro-operation whose word stands in `seq`. -/
theorem step_cases_micro {s t : State} (h : step s = .next t) :
    ((∃ rest, s.inputs = .reset :: rest) ∧ t = s.dropInput.resetEvent) ∨
    (s.EngineTurn ∧ s.seq = seqWord .idle 0 ∧ t = s.dropInput) ∨
    (∃ hw rest, s.inputs = .host hw :: rest ∧ exec (decodeHost hw) s.dropInput = .next t) ∨
    (∃ i, s.EngineTurn ∧ i.wf = true ∧ encode i = .seq s.dropInput.seq ∧ MicroStep i s.dropInput t) := by
  obtain hreset | hidle | hhost | ⟨i, hturn, -, hdecode, hexec⟩ := step_cases h
  · exact .inl hreset
  · exact .inr (.inl hidle)
  · exact .inr (.inr (.inl hhost))
  · obtain ⟨hwf, hencode⟩ := encode_of_decodeSeq hdecode
    exact .inr (.inr (.inr ⟨i, hturn, hwf, hencode, microStep_of_exec (decodeSeq_isEngine hdecode) hexec⟩))

/-- In the engine's turn, a micro-operation whose word stands in `seq` is the step. -/
theorem step_of_microStep {s t : State} {i : Instr} (hturn : s.EngineTurn) (hwf : i.wf = true)
    (hseq : encode i = .seq s.seq) (h : MicroStep i s.dropInput t) : step s = .next t := by
  have hdecode : decode (.seq s.seq) = .ok i := by rw [← hseq]; exact decodeEncodeRoundTrip i hwf
  rw [step_engine hturn hdecode, exec_of_microStep h]

end Sys2Proof.Machine
end

section
/-! The invariants of memory, flags and sequencer (10_state.md R25 to R28, 30_encoding.md R106): kept by every step. The
part that speaks of the sequencer and the block registers alone, `ControlOk`, is what a run of the engine needs. -/

namespace Sys2Proof.Machine

/-- The part of `State.Inv` about the sequencer and the block registers. -/
structure State.ControlOk (s : State) : Prop where
  sequencer : LegalSeq s.seq
  blocks : s.seq ≠ seqWord .idle 0 → s.seq ≠ seqWord .pad 0 → s.BlocksOk
  first : s.seq = seqWord .init 0 → s.blk = 0
  last : s.seq = seqWord .finish 0 → s.blk.toNat + 1 = s.NBLK.toNat

/-- The part of `State.Inv` about the flags. -/
structure State.FlagsOk (s : State) : Prop where
  busy : s.BUSY = true ↔ s.seq ≠ seqWord .idle 0
  oneFlag : ¬(s.BUSY = true ∧ s.DONE = true) ∧ ¬(s.BUSY = true ∧ s.ERR = true) ∧ ¬(s.DONE = true ∧ s.ERR = true)
  cause : s.CAUSE = if s.ERR then 1 else 0

/-- The part of `State.Inv` about the memory. -/
structure State.MemoryOk (s : State) : Prop where
  memory : s.MSG.wf
  inside : ∀ c ∈ s.MSG, c.1 < s.MSG_BYTES
  size : s.MSG_BYTES ≤ 2 ^ 61

/-- The invariants are those of the three parts. -/
theorem inv_iff (s : State) : s.Inv ↔ s.MemoryOk ∧ s.FlagsOk ∧ s.ControlOk := by
  constructor
  · intro h
    exact ⟨⟨h.memory, h.inside, h.size⟩, ⟨h.busy, h.oneFlag, h.cause⟩, ⟨h.sequencer, h.blocks, h.first, h.last⟩⟩
  · rintro ⟨hm, hf, hc⟩
    exact ⟨hm.memory, hm.inside, hm.size, hc.sequencer, hf.busy, hf.oneFlag, hf.cause, hc.blocks, hc.first, hc.last⟩

/-! The block registers and LEN are all that `BlocksOk` reads. -/

@[simp] theorem goto_blocksOk (s : State) (p : Phase) (i : Fin 64) : (s.goto p i).BlocksOk ↔ s.BlocksOk := Iff.rfl
@[simp] theorem setH_blocksOk (s : State) (h : Vector Word 8) : (s.setH h).BlocksOk ↔ s.BlocksOk := Iff.rfl
@[simp] theorem setV_blocksOk (s : State) (v : Work) : (s.setV v).BlocksOk ↔ s.BlocksOk := Iff.rfl
@[simp] theorem setW_blocksOk (s : State) (w : Vector Word 64) : (s.setW w).BlocksOk ↔ s.BlocksOk := Iff.rfl

/-! Sequencer values -/

theorem legalSeq_idle : LegalSeq (seqWord .idle 0) := .inl rfl

/-- The encoding of a well-formed micro-operation is a legal value of `seq`. -/
theorem legalSeq_of_encode {w : BitVec 10} {i : Instr} (hwf : i.wf = true) (h : encode i = .seq w) : LegalSeq w :=
  .inr ⟨i, by rw [← h]; exact decodeEncodeRoundTrip i hwf⟩

/-- The micro-operation a word encodes is the one it decodes to. -/
theorem eq_of_encode_of_decode {w : BitVec 10} {i j : Instr} (hwf : i.wf = true) (h : encode i = .seq w)
    (hdecode : decode (.seq w) = .ok j) : i = j := by
  have hround := decodeEncodeRoundTrip i hwf
  rw [h, hdecode] at hround
  exact (Except.ok.inj hround).symm

/-- The IDLE word encodes no micro-operation. -/
theorem seq_ne_idle_of_encode {w : BitVec 10} {i : Instr} (hwf : i.wf = true) (h : encode i = .seq w) :
    w ≠ seqWord .idle 0 := by
  rintro rfl
  have hround := decodeEncodeRoundTrip i hwf
  rw [h] at hround
  cases hround

/-! The three parts where the step writes none of their fields -/

theorem State.Inv.dropInput {s : State} (h : s.Inv) : s.dropInput.Inv :=
  ⟨h.memory, h.inside, h.size, h.sequencer, h.busy, h.oneFlag, h.cause, h.blocks, h.first, h.last⟩

/-- MLEN and the model's own fields stand in no invariant. -/
theorem State.Inv.of_host_fields {s t : State} (h : s.Inv)
    (ht : t = { s with MLEN := t.MLEN, inputs := t.inputs, outputs := t.outputs, freeCtr := t.freeCtr }) : t.Inv := by
  rw [ht]
  exact ⟨h.memory, h.inside, h.size, h.sequencer, h.busy, h.oneFlag, h.cause, h.blocks, h.first, h.last⟩

/-- Once the engine is past PAD with the block registers set, only INIT and FINISH ask more of them. -/
theorem State.ControlOk.of_blocksOk {s : State} {i : Instr} (hwf : i.wf = true) (hseq : encode i = .seq s.seq)
    (hblocks : s.BlocksOk) (hfirst : i = .init → s.blk = 0) (hlast : i = .finish → s.blk.toNat + 1 = s.NBLK.toNat) :
    s.ControlOk where
  sequencer := legalSeq_of_encode hwf hseq
  blocks _ _ := hblocks
  first h := hfirst (eq_of_encode_of_decode hwf hseq (h ▸ decode_seq_init))
  last h := hlast (eq_of_encode_of_decode hwf hseq (h ▸ decode_seq_finish))

/-- The phases that come before the block registers are set, and after the computation, ask nothing of them. -/
theorem State.ControlOk.of_idle {s : State} (h : s.seq = seqWord .idle 0) : s.ControlOk where
  sequencer := h ▸ legalSeq_idle
  blocks hne := absurd h hne
  first h' := absurd (h.symm.trans h') (by decide)
  last h' := absurd (h.symm.trans h') (by decide)

theorem State.ControlOk.of_pad {s : State} (h : s.seq = seqWord .pad 0) : s.ControlOk where
  sequencer := .inr ⟨.pad, by rw [h]; rfl⟩
  blocks _ hne := absurd h hne
  first h' := absurd (h.symm.trans h') (by decide)
  last h' := absurd (h.symm.trans h') (by decide)

/-- At a micro-operation other than PAD the block registers agree with LEN. -/
theorem State.ControlOk.blocksOk {s : State} {i : Instr} (h : s.ControlOk) (hwf : i.wf = true)
    (hseq : encode i = .seq s.seq) (hpad : i ≠ .pad) : s.BlocksOk :=
  h.blocks (seq_ne_idle_of_encode hwf hseq) fun hp =>
    hpad (eq_of_encode_of_decode hwf hseq (hp ▸ decode_seq_pad))

/-- Every micro-operation keeps the invariants of the sequencer and the block registers. -/
theorem MicroStep.controlOk {i : Instr} {s t : State} (h : MicroStep i s t) (hwf : i.wf = true)
    (hseq : encode i = .seq s.seq) (hs : s.ControlOk) : t.ControlOk := by
  have blocks : i ≠ .pad → s.BlocksOk := hs.blocksOk hwf hseq
  cases h with
  | padOverflow | finish => exact .of_idle rfl
  | padAccept hlen =>
    have hcount := blockCount_toNat hlen
    have hpos : 0 < (blockCount s.LEN).toNat := by rw [hcount, messageBlocks]; omega
    exact .of_blocksOk (i := .init) rfl rfl ⟨hlen, hcount, hpos⟩ (fun _ => rfl) (by simp)
  | init => exact .of_blocksOk (i := .ldblk) rfl rfl (by simpa using blocks) (by simp) (by simp)
  | ldblk => exact .of_blocksOk (i := .expand 16) rfl rfl (by simpa using blocks) (by simp) (by simp)
  | @expandNext _ _ j hi hj =>
    have hj16 : 16 ≤ j.val := by omega
    exact .of_blocksOk (i := .expand j) (decide_eq_true hj16) rfl (by simpa using blocks) (by simp) (by simp)
  | expandLast => exact .of_blocksOk (i := .ldwork) rfl rfl (by simpa using blocks) (by simp) (by simp)
  | ldwork => exact .of_blocksOk (i := .round 0) rfl rfl (by simpa using blocks) (by simp) (by simp)
  | @roundNext _ _ j => exact .of_blocksOk (i := .round j) rfl rfl (by simpa using blocks) (by simp) (by simp)
  | roundLast => exact .of_blocksOk (i := .feedfwd) rfl rfl (by simpa using blocks) (by simp) (by simp)
  | feedfwdNext hmore =>
    obtain ⟨hlen, hcount, -⟩ := blocks (by simp)
    have hnext : (s.blk + 1).toNat < s.NBLK.toNat := by rw [blk_succ_toNat hmore]; exact hmore
    exact .of_blocksOk (i := .ldblk) rfl rfl ⟨hlen, hcount, hnext⟩ (by simp) (by simp)
  | feedfwdLast hlast =>
    have hblocks := blocks (by simp)
    have ⟨_, _, hbelow⟩ := hblocks
    have heq : s.blk.toNat + 1 = s.NBLK.toNat := by omega
    exact .of_blocksOk (i := .finish) rfl rfl (by simpa using hblocks) (by simp) (fun _ => heq)

/-- No micro-operation writes memory. -/
theorem MicroStep.memory_frame {i : Instr} {s t : State} (h : MicroStep i s t) :
    t.MSG = s.MSG ∧ t.MSG_BYTES = s.MSG_BYTES ∧ t.LEN = s.LEN := by
  cases h <;> simp

/-- Every micro-operation keeps the invariants of the flags: PAD and FINISH clear BUSY as they go to IDLE, every other
one goes to a micro-operation and leaves the flags. -/
theorem MicroStep.flagsOk {i : Instr} {s t : State} (h : MicroStep i s t) (hwf : i.wf = true)
    (hseq : encode i = .seq s.seq) (hs : s.FlagsOk) : t.FlagsOk := by
  have hbusy : s.BUSY = true := hs.busy.mpr (seq_ne_idle_of_encode hwf hseq)
  have running {u : State} (hu : u.seq ≠ seqWord .idle 0)
      (hf : u.BUSY = s.BUSY ∧ u.DONE = s.DONE ∧ u.ERR = s.ERR ∧ u.CAUSE = s.CAUSE) : u.FlagsOk := by
    obtain ⟨hB, hD, hE, hC⟩ := hf
    exact ⟨by simp [hB, hbusy, hu], by rw [hB, hD, hE]; exact hs.oneFlag, by rw [hC, hE]; exact hs.cause⟩
  cases h with
  | padOverflow => exact ⟨by simp, by simp, rfl⟩
  | finish =>
    obtain ⟨-, hBE, -⟩ := hs.oneFlag
    have herr : s.ERR = false := by simpa [hbusy] using hBE
    exact ⟨by simp, by simp [herr], hs.cause⟩
  | _ => exact running (by simp) (by simp)

/-- Every micro-operation keeps the invariants. -/
theorem MicroStep.inv {i : Instr} {s t : State} (h : MicroStep i s t) (hwf : i.wf = true)
    (hseq : encode i = .seq s.seq) (hs : s.Inv) : t.Inv := by
  rw [inv_iff] at hs ⊢
  obtain ⟨hmem, hflags, hcontrol⟩ := hs
  obtain ⟨hM, hB, -⟩ := h.memory_frame
  refine ⟨⟨?_, ?_, ?_⟩, h.flagsOk hwf hseq hflags, h.controlOk hwf hseq hcontrol⟩
  · rw [hM]; exact hmem.memory
  · rw [hM, hB]; exact hmem.inside
  · rw [hB]; exact hmem.size

/-- A byte stored inside the memory keeps the invariants. -/
theorem State.Inv.storeByte {s : State} (h : s.Inv) {a : Nat} (ha : a < s.MSG_BYTES) (b : Byte) :
    (s.storeByte a b).Inv :=
  ⟨Memory.write_wf h.memory, Memory.write_all (p := (· < s.MSG_BYTES)) h.inside ha, h.size, h.sequencer, h.busy,
    h.oneFlag, h.cause, h.blocks, h.first, h.last⟩

/-- An accepted START keeps the invariants: the flags of a running computation, at PAD. -/
theorem State.Inv.acceptStart {s : State} (h : s.Inv) : s.acceptStart.Inv :=
  (inv_iff _).mpr ⟨⟨h.memory, h.inside, h.size⟩, ⟨by simp, by simp, rfl⟩, .of_pad rfl⟩

/-- RESET establishes the invariants whatever the state, but for the parameter MSG_BYTES. -/
theorem inv_resetEvent {s : State} (h : s.MSG_BYTES ≤ 2 ^ 61) : s.resetEvent.Inv :=
  (inv_iff _).mpr ⟨⟨List.Pairwise.nil, by simp [State.reset], h⟩,
    ⟨⟨fun h => absurd h Bool.false_ne_true, fun h => absurd rfl h⟩, by simp [State.reset], rfl⟩, .of_idle rfl⟩

/-- Every transaction of the host keeps the invariants. -/
theorem exec_host_inv {i : Instr} {s t : State} (hi : i.isEngine = false) (h : exec i s = .next t) (hs : s.Inv) :
    t.Inv := by
  obtain ⟨-, -, rfl⟩ | ⟨m, -, rfl⟩ | ⟨a, b, -, ha, -, rfl⟩ | rfl | ⟨r, rfl⟩ | rfl := execHost_cases hi h
  · exact hs.acceptStart
  · exact hs.of_host_fields rfl
  · exact hs.storeByte ha b
  · exact hs
  · exact hs.of_host_fields rfl
  · exact hs.of_host_fields rfl

/-- Settles O48: RESET establishes the invariants; an idle turn, a transaction of the host and a micro-operation each
keep them. -/
theorem stepKeepsInvariants : Obligations.StepKeepsInvariants := by
  unfold Obligations.StepKeepsInvariants
  intro s t hs h
  obtain ⟨-, rfl⟩ | ⟨-, -, rfl⟩ | ⟨hw, rest, -, hexec⟩ | ⟨i, -, hwf, hseq, hmicro⟩ := step_cases_micro h
  · exact inv_resetEvent hs.size
  · exact hs.dropInput
  · exact exec_host_inv (decodeHost_isEngine hw) hexec hs.dropInput
  · exact hmicro.inv hwf hseq hs.dropInput

end Sys2Proof.Machine
end

section
/-! What a computation has computed so far (41_schedule.md R144, 42_compress.md R164, R165): first within one block,
from any Hash State and any block, then over the blocks of the Message. -/

namespace Sys2Proof.Machine

/-! One block -/

/-- What the engine holds at micro-operation `i` of a block with the bytes `b` that it began with the Hash State `h`. -/
def State.BlockAt (s : State) (h : Vector Word 8) (b : Nat → Byte) : Instr → Prop
  | .ldblk => s.H = h
  | .expand i => s.H = h ∧ ∀ k : Fin 64, k.val < i.val → s.W[k] = sched b k.val
  | .ldwork => s.H = h ∧ ∀ k : Fin 64, s.W[k] = sched b k.val
  | .round i => s.H = h ∧ (∀ k : Fin 64, s.W[k] = sched b k.val) ∧ s.V = rounds (sched b) (workOf s.H) i.val
  | .feedfwd => s.H = h ∧ s.V = rounds (sched b) (workOf s.H) 64
  | _ => True

/-- The micro-operations of a block before the last one, FEEDFWD (44_host_interface.md R204). -/
def inBlock : Instr → Bool
  | .ldblk | .expand _ | .ldwork | .round _ => true
  | _ => false

/-- LDBLK puts the first sixteen words of SCHED in their places. -/
theorem loadedSchedule_eq_sched {s : State} (hblocks : s.BlocksOk) (hready : s.BlockReady) {k : Fin 64}
    (hk : k.val < 16) : (loadedSchedule s)[k] = sched (blockByte s.message s.blk.toNat) k.val := by
  rw [loadedSchedule_low s k hk, blockWord_eq hblocks hready hk, sched_low _ hk]

/-- EXPAND i puts word i of SCHED in its place, where the earlier words are those of SCHED. -/
theorem expandedSchedule_eq_sched {s : State} {b : Nat → Byte} {i : Fin 64} (hi : 16 ≤ i.val)
    (hW : ∀ k : Fin 64, k.val < i.val → s.W[k] = sched b k.val) {k : Fin 64} (hk : k.val ≤ i.val) :
    (s.expandedSchedule i)[k] = sched b k.val := by
  have earlier (d : Nat) (hd : 0 < d) (hdi : d ≤ i.val) : s.W[i.val - d] = sched b (i.val - d) :=
    hW ⟨i.val - d, by omega⟩ (by simp only; omega)
  rw [State.expandedSchedule, earlier 2 (by omega) (by omega), earlier 7 (by omega) (by omega),
    earlier 15 (by omega) (by omega), earlier 16 (by omega) (by omega), ← sched_high b hi i.isLt]
  obtain heq | hlt := Nat.eq_or_lt_of_le hk
  · obtain rfl : k = i := Fin.ext heq
    exact Vector.getElem_set_self _
  · rw [Fin.getElem_fin, Vector.getElem_set_ne _ _ (Nat.ne_of_gt hlt)]
    exact hW k hlt

/-- The round constant that the reference takes from the table as a list. -/
theorem roundK_toList_getD (i : Fin 64) : roundK.toList.getD i.val 0 = roundK[i] := by
  have hlen : i.val < roundK.toList.length := by rw [Vector.length_toList]; exact i.isLt
  rw [List.getD_eq_getElem _ _ hlen, Vector.getElem_toList, Fin.getElem_fin]

/-- ROUND i takes the registers after i rounds to those after i + 1 (R164). -/
theorem roundStep_rounds {w : Nat → Word} {v : Work} {i : Fin 64} {x : Word} (hx : x = w i.val) :
    roundStep roundK[i] x (rounds w v i.val) = rounds w v (i.val + 1) := by
  rw [rounds, roundK_toList_getD, hx]

/-- Within a block every micro-operation keeps what the block has computed so far. -/
theorem MicroStep.blockAt {i j : Instr} {s t : State} {h : Vector Word 8} {b : Nat → Byte} (hstep : MicroStep i s t)
    (hin : inBlock i = true) (hload : i = .ldblk → s.BlocksOk ∧ b = blockByte s.message s.blk.toNat)
    (hs : s.BlockAt h b i) (hj : j.wf = true) (hseq : encode j = .seq t.seq) : t.BlockAt h b j := by
  cases hstep with
  | ldblk hready =>
    obtain ⟨hblocks, rfl⟩ := hload rfl
    obtain rfl := eq_of_encode_of_decode hj hseq (decode_seq_expand (by decide))
    simp only [State.BlockAt, goto_H, setW_H, goto_W, setW_W] at hs ⊢
    exact ⟨hs, fun k hk => loadedSchedule_eq_sched hblocks hready hk⟩
  | @expandNext _ i next hi hnext =>
    obtain rfl := eq_of_encode_of_decode hj hseq (decode_seq_expand (by omega))
    simp only [State.BlockAt, goto_H, setW_H, goto_W, setW_W] at hs ⊢
    obtain ⟨hH, hW⟩ := hs
    exact ⟨hH, fun k hk => expandedSchedule_eq_sched hi hW (by omega)⟩
  | @expandLast _ i hlast =>
    obtain rfl := eq_of_encode_of_decode hj hseq decode_seq_ldwork
    simp only [State.BlockAt, goto_H, setW_H, goto_W, setW_W] at hs ⊢
    obtain ⟨hH, hW⟩ := hs
    exact ⟨hH, fun k => expandedSchedule_eq_sched (by omega) hW (by omega)⟩
  | ldwork =>
    obtain rfl := eq_of_encode_of_decode hj hseq (decode_seq_round 0)
    simp only [State.BlockAt, goto_H, setV_H, goto_W, setV_W, goto_V, setV_V] at hs ⊢
    obtain ⟨hH, hW⟩ := hs
    exact ⟨hH, hW, rfl⟩
  | @roundNext _ i next hnext =>
    obtain rfl := eq_of_encode_of_decode hj hseq (decode_seq_round next)
    simp only [State.BlockAt, goto_H, setV_H, goto_W, setV_W, goto_V, setV_V] at hs ⊢
    obtain ⟨hH, hW, hV⟩ := hs
    exact ⟨hH, hW, by rw [hV, hnext, roundStep_rounds (hW i)]⟩
  | @roundLast _ i hlast =>
    obtain rfl := eq_of_encode_of_decode hj hseq decode_seq_feedfwd
    simp only [State.BlockAt, goto_H, setV_H, goto_V, setV_V] at hs ⊢
    obtain ⟨hH, hW, hV⟩ := hs
    exact ⟨hH, by rw [hV, roundStep_rounds (hW i), hlast]⟩
  | _ => exact absurd hin Bool.false_ne_true

/-- At the end of a block the feed-forward is COMPRESS (R164). -/
theorem State.BlockAt.feedForward_eq {s : State} {h : Vector Word 8} {b : Nat → Byte} (hs : s.BlockAt h b .feedfwd) :
    feedForward s.H s.V = compressBlock h b := by
  obtain ⟨hH, hV⟩ := hs
  rw [compressBlock, hV, hH]

/-! All blocks -/

/-- What a computation holds at micro-operation `i`: that of the current block, begun with the Hash State after the
earlier blocks; at FINISH the digest. -/
def State.DigestAt (s : State) (i : Instr) : Prop :=
  s.BlockAt (hashAfter s.message s.blk.toNat) (blockByte s.message s.blk.toNat) i ∧
    (i = .finish → s.H = sha256 s.message)

/-- An EXPAND word is a legal value of `seq` from index 16 on (R106). -/
theorem legalSeq_expand_iff {k : Fin 64} : LegalSeq (seqWord .expand k) ↔ 16 ≤ k.val := by
  constructor
  · rintro (hidle | ⟨i, hi⟩)
    · cases (seqWord_inj.mp hidle).1
    · have hcases := decodeSeq_cases hi
      simp only [seqWord_inj, reduceCtorEq, false_and, false_or, or_false, true_and] at hcases
      obtain ⟨k', h16, rfl, -⟩ | ⟨_, h, -⟩ := hcases
      exact h16
  · exact fun h16 => .inr ⟨.expand k, decode_seq_expand h16⟩

/-- `DigestInv` says of the micro-operation in `seq` what `DigestAt` says. -/
theorem digestInv_iff {s : State} (hlegal : LegalSeq s.seq) :
    s.DigestInv ↔ ∀ i : Instr, i.wf = true → encode i = .seq s.seq → s.DigestAt i := by
  constructor
  · intro h i hwf hseq
    have word {v : BitVec 10} (hv : encode i = .seq v) : s.seq = v := Code.seq.inj (hseq.symm.trans hv)
    cases i with
    | ldblk => exact ⟨h.ldblk (word rfl), by simp⟩
    | expand k => exact ⟨h.expand k (word rfl), by simp⟩
    | ldwork =>
      obtain ⟨hH, hW⟩ := h.ldwork (word rfl)
      exact ⟨⟨hH, fun k => hW k k.isLt⟩, by simp⟩
    | round k =>
      obtain ⟨hH, hW, hV⟩ := h.round k (word rfl)
      exact ⟨⟨hH, fun k => hW k k.isLt, hV⟩, by simp⟩
    | feedfwd => exact ⟨h.feedfwd (word rfl), by simp⟩
    | finish => exact ⟨trivial, fun _ => h.finish (word rfl)⟩
    | _ => exact ⟨trivial, by simp⟩
  · intro h
    have at_word {p : Phase} {k : Fin 64} {i : Instr} (hw : s.seq = seqWord p k) (hi : encode i = .seq (seqWord p k))
        (hwf : i.wf = true) : s.DigestAt i := h i hwf (hi.trans (by rw [hw]))
    refine ⟨fun hw => ?ldblk, fun k hw => ?expand, fun hw => ?ldwork, fun k hw => ?round, fun hw => ?feedfwd,
      fun hw => ?finish⟩
    case ldblk => exact (at_word (i := .ldblk) hw rfl rfl).1
    case expand =>
      have h16 : 16 ≤ k.val := legalSeq_expand_iff.mp (hw ▸ hlegal)
      exact (at_word (i := .expand k) hw rfl (decide_eq_true h16)).1
    case ldwork =>
      obtain ⟨⟨hH, hW⟩, -⟩ := at_word (i := .ldwork) hw rfl rfl
      exact ⟨hH, fun k _ => hW k⟩
    case round =>
      obtain ⟨⟨hH, hW, hV⟩, -⟩ := at_word (i := .round k) hw rfl rfl
      exact ⟨hH, fun k _ => hW k, hV⟩
    case feedfwd => exact (at_word (i := .feedfwd) hw rfl rfl).1
    case finish => exact (at_word (i := .finish) hw rfl rfl).2 rfl

/-- Where no micro-operation that has computed anything stands in `seq`, there is nothing to keep. -/
theorem State.DigestInv.of_idle {s : State} (h : s.seq = seqWord .idle 0) : s.DigestInv :=
  (digestInv_iff (h ▸ legalSeq_idle)).mpr fun _ hwf hseq => absurd h (seq_ne_idle_of_encode hwf hseq)

theorem State.DigestInv.of_pad {s : State} (h : s.seq = seqWord .pad 0) : s.DigestInv := by
  refine (digestInv_iff (State.ControlOk.of_pad h).sequencer).mpr fun i hwf hseq => ?_
  obtain rfl := eq_of_encode_of_decode hwf hseq (h ▸ decode_seq_pad)
  exact ⟨trivial, by simp⟩

/-- No micro-operation but FEEDFWD moves on to another block, and PAD sets the first. -/
theorem MicroStep.blk_eq {i : Instr} {s t : State} (h : MicroStep i s t) (hin : inBlock i = true) : t.blk = s.blk := by
  cases h with
  | ldblk | expandNext | expandLast | ldwork | roundNext | roundLast => simp
  | _ => exact absurd hin Bool.false_ne_true

/-- A micro-operation within a block goes to another one of it, or to FEEDFWD. -/
theorem MicroStep.seq_ne_finish {i : Instr} {s t : State} (h : MicroStep i s t) (hin : inBlock i = true) :
    t.seq ≠ seqWord .finish 0 := by
  cases h with
  | ldblk | expandNext | expandLast | ldwork | roundNext | roundLast => simp
  | _ => exact absurd hin Bool.false_ne_true

/-- No micro-operation changes the Message. -/
theorem MicroStep.message_eq {i : Instr} {s t : State} (h : MicroStep i s t) : t.message = s.message := by
  obtain ⟨hmsg, -, hlen⟩ := h.memory_frame
  exact message_congr hlen fun a _ => by rw [hmsg]

/-- Within a block every micro-operation keeps what the computation has computed. -/
theorem MicroStep.digestAt_of_inBlock {i j : Instr} {s t : State} (h : MicroStep i s t) (hin : inBlock i = true)
    (hblocks : s.BlocksOk) (hs : s.DigestAt i) (hj : j.wf = true) (hseq : encode j = .seq t.seq) : t.DigestAt j := by
  obtain ⟨hblock, -⟩ := hs
  rw [State.DigestAt, h.message_eq, h.blk_eq hin]
  refine ⟨h.blockAt hin (fun _ => ⟨hblocks, rfl⟩) hblock hj hseq, ?_⟩
  rintro rfl
  exact absurd (Code.seq.inj hseq).symm (h.seq_ne_finish hin)

/-- The Hash State that FEEDFWD leaves is that after the current block (R165). -/
theorem State.DigestAt.feedForward_eq {s : State} (h : s.DigestAt .feedfwd) :
    feedForward s.H s.V = hashAfter s.message (s.blk.toNat + 1) := by
  obtain ⟨hblock, -⟩ := h
  rw [hblock.feedForward_eq, hashAfter]

/-- Every micro-operation keeps what the computation has computed. -/
theorem MicroStep.digestInv {i : Instr} {s t : State} (h : MicroStep i s t) (hwf : i.wf = true)
    (hseq : encode i = .seq s.seq) (hc : s.ControlOk) (hs : s.DigestInv) : t.DigestInv := by
  have hi : s.DigestAt i := (digestInv_iff hc.sequencer).mp hs i hwf hseq
  refine (digestInv_iff (h.controlOk hwf hseq hc).sequencer).mpr fun j hj hjseq => ?_
  by_cases hin : inBlock i = true
  · have hpad : i ≠ .pad := by rintro rfl; exact Bool.false_ne_true hin
    exact h.digestAt_of_inBlock hin (hc.blocksOk hwf hseq hpad) hi hj hjseq
  · cases h with
    | padOverflow | finish => exact absurd rfl (seq_ne_idle_of_encode hj hjseq)
    | padAccept =>
      obtain rfl := eq_of_encode_of_decode hj hjseq decode_seq_init
      exact ⟨trivial, by simp⟩
    | init =>
      obtain rfl := eq_of_encode_of_decode hj hjseq decode_seq_ldblk
      have hblk : s.blk = 0 := hc.first (Code.seq.inj hseq).symm
      simp [State.DigestAt, State.BlockAt, hblk, hashAfter]
    | feedfwdNext hmore =>
      obtain rfl := eq_of_encode_of_decode hj hjseq decode_seq_ldblk
      refine ⟨?_, by simp⟩
      simp only [State.BlockAt, goto_H, setBlk_H, setH_H, goto_message, setBlk_message, setH_message, goto_blk,
        setBlk_blk, hi.feedForward_eq, blk_succ_toNat hmore]
    | feedfwdLast hlast =>
      obtain rfl := eq_of_encode_of_decode hj hjseq decode_seq_finish
      obtain ⟨-, hcount, hbelow⟩ := hc.blocksOk hwf hseq (by simp)
      have hlen : messageBlocks s.message.length = s.blk.toNat + 1 := by rw [length_message]; omega
      refine ⟨trivial, fun _ => ?_⟩
      rw [goto_H, setH_H, hi.feedForward_eq, goto_message, setH_message, sha256, hlen]
    | _ => exact absurd rfl hin

/-! The host -/

/-- The digest so far is read from the Message, the sequencer and the engine's registers. -/
theorem State.DigestInv.congr {s t : State} (h : s.DigestInv) (hm : t.message = s.message) (hseq : t.seq = s.seq)
    (hH : t.H = s.H) (hV : t.V = s.V) (hW : t.W = s.W) (hblk : t.blk = s.blk) : t.DigestInv := by
  constructor <;>
    simp only [State.HashOk, State.ScheduleUpTo, State.RoundsOk, hm, hseq, hH, hV, hW, hblk]
  · exact h.ldblk
  · exact h.expand
  · exact h.ldwork
  · exact h.round
  · exact h.feedfwd
  · exact h.finish

/-- A byte stored at or beyond LEN is no byte of the Message. -/
theorem storeByte_message {s : State} {a : Nat} (ha : s.LEN.toNat ≤ a) (b : Byte) :
    (s.storeByte a b).message = s.message :=
  message_congr rfl fun _ hc => Memory.read_write_other (Nat.ne_of_lt (Nat.lt_of_lt_of_le hc ha))

/-- Every transaction of the host keeps what the computation has computed: while one is in progress a START is ignored
and a write below LEN refused. -/
theorem exec_host_digestInv {i : Instr} {s t : State} (hi : i.isEngine = false) (h : exec i s = .next t)
    (hinv : s.Inv) (hs : s.DigestInv) : t.DigestInv := by
  obtain ⟨-, -, rfl⟩ | ⟨m, -, rfl⟩ | ⟨a, b, -, -, hduty, rfl⟩ | rfl | ⟨r, rfl⟩ | rfl := execHost_cases hi h
  · exact State.DigestInv.of_pad rfl
  · exact hs.congr rfl rfl rfl rfl rfl rfl
  · by_cases hbusy : s.BUSY = true
    · exact hs.congr (storeByte_message (by simpa [hbusy] using hduty) b) rfl rfl rfl rfl rfl
    · have hidle : s.seq = seqWord .idle 0 := by simpa [hinv.busy] using hbusy
      exact State.DigestInv.of_idle hidle
  · exact hs
  · exact hs.congr rfl rfl rfl rfl rfl rfl
  · exact hs.congr rfl rfl rfl rfl rfl rfl

/-- Settles O49: RESET leaves an idle engine; an idle turn and a transaction of the host leave what the computation has
computed, a micro-operation adds its part. -/
theorem stepKeepsTheDigestSoFar : Obligations.StepKeepsTheDigestSoFar := by
  unfold Obligations.StepKeepsTheDigestSoFar
  intro s t hinv hs h
  have hdrop : s.dropInput.DigestInv := hs.congr rfl rfl rfl rfl rfl rfl
  obtain ⟨-, rfl⟩ | ⟨-, -, rfl⟩ | ⟨hw, rest, -, hexec⟩ | ⟨i, -, hwf, hseq, hmicro⟩ := step_cases_micro h
  · exact State.DigestInv.of_idle rfl
  · exact hdrop
  · exact exec_host_digestInv (decodeHost_isEngine hw) hexec hinv.dropInput hdrop
  · obtain ⟨-, -, hcontrol⟩ := (inv_iff _).mp hinv.dropInput
    exact hmicro.digestInv hwf hseq hcontrol hdrop

end Sys2Proof.Machine
end

section
/-! The operand forms by bits and by arithmetic (00_scope.md R9, R10; 41_schedule.md R140, R141; 42_compress.md R155 to
R158, R171, R172), the Padded Message (40_padder_splitter.md R122 to R124) and HEX (43_formatter.md R182, R184). -/

namespace Sys2Proof.Machine

/-! Rotation and shift -/

/-- Bit i of ROTR(x, n) is bit i + n of x, around the end of the word (R171). -/
theorem getLsbD_rotr (x : Word) {n i : Nat} (hn : n < 32) (hi : i < 32) :
    (rotr x n).getLsbD i = x.getLsbD ((i + n) % 32) := by
  rw [rotr, BitVec.getLsbD_rotateRight_of_lt hn]
  by_cases hlow : i < 32 - n
  · rw [decide_eq_true hlow, cond_true, Nat.mod_eq_of_lt (by omega), Nat.add_comm]
  · rw [decide_eq_false hlow, cond_false, decide_eq_true hi, Bool.true_and]
    congr 1
    omega

/-- Bit i of SHR(x, n) is bit i + n of x, 0 past the end of the word (R172). -/
theorem getLsbD_shr (x : Word) (n i : Nat) : (shr x n).getLsbD i = x.getLsbD (i + n) := by
  rw [shr, BitVec.getLsbD_ushiftRight, Nat.add_comm]

theorem shr_toNat (x : Word) (n : Nat) : (shr x n).toNat = x.toNat / 2 ^ n := by
  rw [shr, BitVec.toNat_ushiftRight, Nat.shiftRight_eq_div_pow]

/-- The bits that ROTR moves out at the bottom come in at the top (R171). -/
theorem rotr_toNat (x : Word) {n : Nat} (h0 : 0 < n) (hn : n < 32) :
    (rotr x n).toNat = x.toNat / 2 ^ n + (x.toNat % 2 ^ n) * 2 ^ (32 - n) := by
  have hpow : 2 ^ n * 2 ^ (32 - n) = 2 ^ 32 := by rw [← Nat.pow_add]; congr 1; omega
  have hhigh : x.toNat / 2 ^ n < 2 ^ (32 - n) := Nat.div_lt_of_lt_mul (hpow ▸ x.isLt)
  have hleft : x.toNat * 2 ^ (32 - n) % 2 ^ 32 = (x.toNat % 2 ^ n) * 2 ^ (32 - n) := by
    rw [← hpow, Nat.mul_mod_mul_right]
  rw [rotr, BitVec.rotateRight_def, Nat.mod_eq_of_lt hn, BitVec.toNat_or, BitVec.toNat_ushiftRight,
    BitVec.toNat_shiftLeft, Nat.shiftRight_eq_div_pow, Nat.shiftLeft_eq, hleft, Nat.or_comm, ← Nat.shiftLeft_eq,
    ← Nat.shiftLeft_add_eq_or_of_lt hhigh, Nat.add_comm]

/-- Settles O5: the bits and the values of the two operators; SHR moves zeros in past bit 31. -/
theorem rotationAndShift : Obligations.RotationAndShift := by
  unfold Obligations.RotationAndShift
  intro x n h0 hn
  refine ⟨fun i hi => getLsbD_rotr x hn hi, rotr_toNat x h0 hn, fun i _ => ?_, shr_toNat x n⟩
  rw [getLsbD_shr]
  by_cases hin : i + n ≤ 31
  · simp [hin]
  · rw [BitVec.getLsbD_of_ge _ _ (by omega), decide_eq_false hin, Bool.false_and]

/-- Settles O6: the operators act bit by bit; Ch and Maj by the truth table. -/
theorem wordFunctionsByBits : Obligations.WordFunctionsByBits := by
  unfold Obligations.WordFunctionsByBits
  intro x y z i hi
  have rot {n : Nat} (hn : n < 32) : (rotr x n).getLsbD i = x.getLsbD ((i + n) % 32) := getLsbD_rotr x hn hi
  refine ⟨?ssig0, ?ssig1, ?bsig0, ?bsig1, ?ch, ?maj⟩
  case ssig0 => rw [ssig0, BitVec.getLsbD_xor, BitVec.getLsbD_xor, rot (by decide), rot (by decide), getLsbD_shr]
  case ssig1 => rw [ssig1, BitVec.getLsbD_xor, BitVec.getLsbD_xor, rot (by decide), rot (by decide), getLsbD_shr]
  case bsig0 =>
    rw [bsig0, BitVec.getLsbD_xor, BitVec.getLsbD_xor, rot (by decide), rot (by decide), rot (by decide)]
  case bsig1 =>
    rw [bsig1, BitVec.getLsbD_xor, BitVec.getLsbD_xor, rot (by decide), rot (by decide), rot (by decide)]
  case ch =>
    simp only [ch, BitVec.getLsbD_xor, BitVec.getLsbD_and, BitVec.getLsbD_not, hi, decide_true, Bool.true_and]
    cases x.getLsbD i <;> simp
  case maj =>
    simp only [maj, BitVec.getLsbD_xor, BitVec.getLsbD_and]
    cases x.getLsbD i <;> cases y.getLsbD i <;> cases z.getLsbD i <;> rfl

/-! Byte order -/

theorem be64Byte_toNat (v : BitVec 64) (k : Nat) : (be64Byte v k).toNat = v.toNat / 2 ^ (56 - 8 * k) % 2 ^ 8 := by
  rw [be64Byte, BitVec.extractLsb'_toNat, Nat.shiftRight_eq_div_pow]

/-- A word is BE32 of its four bytes (R10). -/
theorem be32_be32Byte (w : Word) : be32 (be32Byte w 0) (be32Byte w 1) (be32Byte w 2) (be32Byte w 3) = w := by
  have hw := w.isLt
  apply BitVec.eq_of_toNat_eq
  simp only [be32_toNat, be32Byte_toNat]
  omega

/-- Settles O7: each helper as a number, and the bytes of a word put together again. -/
theorem byteOrderHelpers : Obligations.ByteOrderHelpers := by
  unfold Obligations.ByteOrderHelpers
  exact ⟨be32_toNat, fun w k _ => be32Byte_toNat w k, fun v k _ => be64Byte_toNat v k, be32_be32Byte⟩

/-! The Padded Message -/

/-- Settles O9: `zeroCount_add` and `length_paddedMessage` give the lengths, the least count is arithmetic modulo 64. -/
theorem paddedMessageShape : Obligations.PaddedMessageShape := by
  unfold Obligations.PaddedMessageShape
  intro m
  have htotal := zeroCount_add m.length
  have hle : zeroCount m.length ≤ 63 := by rw [zeroCount]; omega
  exact ⟨by omega, fun z hz => by omega, hle, length_paddedMessage m, by omega, by omega⟩

/-- Settles O10: byte by byte, `paddedByte_eq`. -/
theorem machinePadsLikeTheSource : Obligations.MachinePadsLikeTheSource := by
  unfold Obligations.MachinePadsLikeTheSource
  exact fun s hlen hcount hready j hj => paddedByte_eq hlen hcount hj (hready j)

/-! HEX -/

/-- The k-th hex digit of a word from the top. -/
def hexDigit (w : Word) (k : Nat) : Nat := w.toNat / 16 ^ (7 - k) % 16

theorem hexDigit_lt (w : Word) (k : Nat) : hexDigit w k < 16 := Nat.mod_lt _ (by decide)

/-- A digit below the first `m` digits of a word makes them its first `m + 1` digits. -/
theorem div_eq_add_hexDigit (w : Word) {m : Nat} (hm : m < 8) :
    w.toNat / 16 ^ (7 - m) = 16 * (w.toNat / 16 ^ (8 - m)) + hexDigit w m := by
  have hpow : 16 ^ (8 - m) = 16 ^ (7 - m) * 16 := by rw [← Nat.pow_succ]; congr 1; omega
  rw [hpow, ← Nat.div_div_eq_div_mul, hexDigit, Nat.div_add_mod]

/-- Words with the same eight digits are equal. -/
theorem eq_of_hexDigit_eq {v w : Word} (h : ∀ k < 8, hexDigit v k = hexDigit w k) : v = w := by
  have upper (m : Nat) (hm : m ≤ 8) : v.toNat / 16 ^ (8 - m) = w.toNat / 16 ^ (8 - m) := by
    induction m with
    | zero =>
      have hv := v.isLt
      have hw := w.isLt
      omega
    | succ m ih =>
      rw [show 8 - (m + 1) = 7 - m by omega, div_eq_add_hexDigit v hm, div_eq_add_hexDigit w hm, ih (by omega), h m hm]
  have hall := upper 8 (Nat.le_refl 8)
  rw [Nat.sub_self, Nat.pow_zero, Nat.div_one, Nat.div_one] at hall
  exact BitVec.eq_of_toNat_eq hall

/-- The two digits of byte k of a word. -/
theorem be32Byte_digits (w : Word) {k : Nat} (hk : k < 4) :
    (be32Byte w k).toNat / 16 = hexDigit w (2 * k) ∧ (be32Byte w k).toNat % 16 = hexDigit w (2 * k + 1) := by
  rw [be32Byte_toNat, hexDigit, hexDigit]
  obtain rfl | rfl | rfl | rfl : k = 0 ∨ k = 1 ∨ k = 2 ∨ k = 3 := by omega
  all_goals constructor <;> omega

/-- Character 8j + k of HEX(H) is that of digit k of H[j] (R182). -/
theorem hexAt_eq (h : Vector Word 8) (n : Fin 64) (j : Fin 8) {k : Nat} (hk : k < 8) (hn : n.val = 8 * j.val + k) :
    hexAt h n = hexChar (hexDigit h[j] k) := by
  have hword : n.val / 2 / 4 = j.val := by omega
  have hbyte : n.val / 2 % 4 = k / 2 := by omega
  obtain ⟨hhigh, hlow⟩ := be32Byte_digits h[j] (k := k / 2) (by omega)
  simp only [Fin.getElem_fin] at hhigh hlow ⊢
  simp only [hexAt, digestByte, hword, hbyte, hhigh, hlow]
  split_ifs with heven
  · rw [show 2 * (k / 2) = k by omega]
  · rw [show 2 * (k / 2) + 1 = k by omega]

/-- The code of a digit as a number (R182). -/
theorem hexChar_toNat {v : Nat} (hv : v < 16) : (hexChar v).toNat = if v ≤ 9 then 0x30 + v else 0x57 + v := by
  rw [hexChar]
  split_ifs <;> rw [BitVec.toNat_ofNat, Nat.mod_eq_of_lt (by omega)]

theorem hexChar_inj {v w : Nat} (hv : v < 16) (hw : w < 16) (h : hexChar v = hexChar w) : v = w := by
  have hcodes := congrArg BitVec.toNat h
  rw [hexChar_toNat hv, hexChar_toNat hw] at hcodes
  split_ifs at hcodes <;> omega

/-- Settles O22: the character at that place is that of the digit, and a digit's code is split at 9. -/
theorem hexDigitsOfTheWords : Obligations.HexDigitsOfTheWords := by
  unfold Obligations.HexDigitsOfTheWords
  rintro h j k _ n hk hn rfl
  rw [hexAt_eq h n j hk hn, hexChar_toNat (hexDigit_lt _ _), hexDigit]

/-- Every character of HEX is that of a digit. -/
theorem exists_digit_of_mem_hexString {h : Vector Word 8} {c : Byte} (hc : c ∈ hexString h) :
    ∃ v < 16, c = hexChar v := by
  obtain ⟨n, rfl⟩ := List.mem_ofFn.mp hc
  exact ⟨_, hexDigit_lt h[(⟨n.val / 8, by omega⟩ : Fin 8)] (n.val % 8),
    hexAt_eq h n ⟨n.val / 8, by omega⟩ (Nat.mod_lt _ (by decide)) (Nat.div_add_mod _ _).symm⟩

/-- HEX gives the Hash State back (R184). -/
theorem hexString_inj {g h : Vector Word 8} (heq : hexString g = hexString h) : g = h := by
  have hchar : hexAt g = hexAt h := List.ofFn_injective heq
  refine Vector.ext fun j hj => eq_of_hexDigit_eq fun k hk => ?_
  have hn : 8 * j + k < 64 := by omega
  have hcodes := congrFun hchar ⟨8 * j + k, hn⟩
  rw [hexAt_eq g _ ⟨j, hj⟩ hk rfl, hexAt_eq h _ ⟨j, hj⟩ hk rfl] at hcodes
  exact hexChar_inj (hexDigit_lt _ _) (hexDigit_lt _ _) hcodes

/-- Settles O23: the codes of the digits lie in the two ranges, and a Hash State is determined by its digits. -/
theorem hexStringProperties : Obligations.HexStringProperties := by
  unfold Obligations.HexStringProperties
  refine ⟨fun h => ⟨List.length_ofFn, fun c hc => ?_⟩, fun g h => hexString_inj⟩
  obtain ⟨v, hv, rfl⟩ := exists_digit_of_mem_hexString hc
  rw [hexChar_toNat hv]
  split_ifs <;> omega

end Sys2Proof.Machine
end

section
/-! The constant tables (10_state.md R32): the first primes by trial division, and each word as the fractional part of
an integer root. -/

namespace Sys2Proof.Machine

/-! The first primes -/

/-- Trial division by the primes below 19. -/
def trialDivision (n : Nat) : Bool :=
  decide (2 ≤ n) && [2, 3, 5, 7, 11, 13, 17].all fun d => n % d != 0 || n == d

theorem trialDivision_iff (n : Nat) :
    trialDivision n = true ↔ 2 ≤ n ∧ ∀ d ∈ [2, 3, 5, 7, 11, 13, 17], d ∣ n → n = d := by
  simp only [trialDivision, Bool.and_eq_true, decide_eq_true_eq, List.all_eq_true, Bool.or_eq_true, bne_iff_ne,
    beq_iff_eq, Nat.dvd_iff_mod_eq_zero, imp_iff_not_or, ne_eq]

/-- The primes below 19. -/
theorem mem_of_prime_of_lt {q : Nat} (hq : q.Prime) (hlt : q < 19) : q ∈ [2, 3, 5, 7, 11, 13, 17] := by
  revert hq
  interval_cases q <;> decide

/-- Below 19² trial division by these primes decides primality. -/
theorem trialDivision_eq_true_iff_prime {n : Nat} (hn : n < 19 ^ 2) : trialDivision n = true ↔ n.Prime := by
  rw [trialDivision_iff]
  constructor
  · rintro ⟨h2, hd⟩
    by_contra hnot
    have hsq : n.minFac ^ 2 ≤ n := Nat.minFac_sq_le_self (by omega) hnot
    have hlt : n.minFac < 19 := lt_of_pow_lt_pow_left₀ 2 (by omega) (hsq.trans_lt hn)
    have hprime : n.minFac.Prime := Nat.minFac_prime (by omega)
    have hself : n = n.minFac := hd _ (mem_of_prime_of_lt hprime hlt) n.minFac_dvd
    exact hnot (hself ▸ hprime)
  · intro hp
    refine ⟨hp.two_le, fun d hd hdvd => ?_⟩
    have hd1 : d ≠ 1 := by rintro rfl; exact absurd hd (by decide)
    exact ((hp.eq_one_or_self_of_dvd d hdvd).resolve_left hd1).symm

/-- The first 64 primes. -/
def firstPrimes : List Nat := [
  2, 3, 5, 7, 11, 13, 17, 19, 23, 29, 31, 37, 41, 43, 47, 53, 59, 61, 67, 71, 73, 79, 83, 89, 97, 101, 103, 107, 109,
  113, 127, 131, 137, 139, 149, 151, 157, 163, 167, 173, 179, 181, 191, 193, 197, 199, 211, 223, 227, 229, 233, 239,
  241, 251, 257, 263, 269, 271, 277, 281, 283, 293, 307, 311]

/-- They are the numbers below 312 that trial division leaves. -/
theorem firstPrimes_eq_filter : firstPrimes = (List.range 312).filter trialDivision := by decide

/-- The places of a filtered range are those that `Nat.nth` counts. -/
theorem nth_eq_getElem_filter_range (p : Nat → Prop) [DecidablePred p] (n i : Nat)
    (h : i < ((List.range n).filter (p ·)).length) : Nat.nth p i = ((List.range n).filter (p ·))[i] := by
  induction n with
  | zero => simp at h
  | succ n ih =>
    have hcount : ((List.range n).filter (p ·)).length = Nat.count p n := by
      rw [Nat.count, List.countP_eq_length_filter]
    simp only [List.range_succ, List.filter_append, List.filter_singleton] at h ⊢
    by_cases hi : i < ((List.range n).filter (p ·)).length
    · rw [List.getElem_append_left hi]
      exact ih hi
    · by_cases hp : p n
      · simp only [hp, decide_true, cond_true, List.length_append, List.length_singleton] at h
        obtain rfl : i = Nat.count p n := by omega
        simp [hp, hcount, Nat.nth_count]
      · simp only [hp, decide_false, cond_false, List.length_append, List.length_nil, Nat.add_zero] at h
        exact absurd h hi

/-- The i-th prime is the i-th of `firstPrimes`. -/
theorem nth_prime_eq {i : Nat} (hi : i < 64) : Nat.nth Nat.Prime i = firstPrimes.getD i 0 := by
  have hfilter : firstPrimes = (List.range 312).filter (fun n => decide n.Prime) := by
    rw [firstPrimes_eq_filter]
    refine List.filter_congr fun n hn => ?_
    have hlt : n < 19 ^ 2 := (List.mem_range.mp hn).trans (by decide)
    rw [Bool.eq_iff_iff, trialDivision_eq_true_iff_prime hlt, decide_eq_true_iff]
  have hlen : i < firstPrimes.length := hi
  rw [List.getD_eq_getElem _ _ hlen]
  simp only [hfilter] at hlen ⊢
  exact nth_eq_getElem_filter_range Nat.Prime 312 i hlen

/-! The roots -/

/-- `w` is the fractional part of the `e`-th root of `p`, of which `a` is the integer part, both scaled by 2^32: the
integer root of p·2^(32e) is {a, w}. -/
def IsRootFraction (e p a : Nat) (w : Word) : Prop :=
  (a * 2 ^ 32 + w.toNat) ^ e ≤ p * 2 ^ (32 * e) ∧ p * 2 ^ (32 * e) < (a * 2 ^ 32 + w.toNat + 1) ^ e

/-- The word is then the root modulo 2^32. -/
theorem IsRootFraction.exists_root {e p a : Nat} {w : Word} (h : IsRootFraction e p a w) :
    ∃ r : Nat, r ^ e ≤ p * 2 ^ (32 * e) ∧ p * 2 ^ (32 * e) < (r + 1) ^ e ∧ w.toNat = r % 2 ^ 32 := by
  obtain ⟨hle, hlt⟩ := h
  exact ⟨a * 2 ^ 32 + w.toNat, hle, hlt, by rw [Nat.mul_add_mod', Nat.mod_eq_of_lt w.isLt]⟩

/-- The IV words, by squaring (R31, R32). -/
theorem initIV_isRootFraction : ∀ j : Fin 8, ∃ a < 8, IsRootFraction 2 (firstPrimes.getD j.val 0) a initIV[j] := by
  unfold IsRootFraction
  decide

/-- The Round Constants, by cubing (R30, R32). -/
theorem roundK_isRootFraction : ∀ i : Fin 64, ∃ a < 8, IsRootFraction 3 (firstPrimes.getD i.val 0) a roundK[i] := by
  unfold IsRootFraction
  decide

/-- Settles O8: the primes are those of `firstPrimes`; the integer part of each root being below 8, each word is
checked by taking powers. -/
theorem constantsAreRootFractions : Obligations.ConstantsAreRootFractions := by
  unfold Obligations.ConstantsAreRootFractions
  refine ⟨fun j => ?iv, fun i => ?k⟩
  case iv =>
    obtain ⟨a, -, ha⟩ := initIV_isRootFraction j
    rw [nth_prime_eq (j.isLt.trans (by decide))]
    exact ha.exists_root
  case k =>
    obtain ⟨a, -, ha⟩ := roundK_isRootFraction i
    rw [nth_prime_eq i.isLt]
    exact ha.exists_root

end Sys2Proof.Machine
end

section
/-! The micro-operations one by one (40_padder_splitter.md R120, 41_schedule.md R142, 42_compress.md R159, R160), what
each may change (10_state.md R41), and what LDBLK reads (20_memory.md R68, R80). -/

namespace Sys2Proof.Machine

/-! PAD -/

/-- Settles O11: the accepting branch of PAD. -/
theorem padAcceptsTheLength : Obligations.PadAcceptsTheLength := by
  unfold Obligations.PadAcceptsTheLength
  exact fun s hlen => ⟨_, execPad_accept hlen, blockCount_toNat hlen, rfl, rfl, rfl⟩

/-- A micro-operation that raises ERR is PAD with a length that overflows. -/
theorem MicroStep.raises {i : Instr} {s t : State} (h : MicroStep i s t) (hs : s.ERR = false) (ht : t.ERR = true) :
    i = .pad ∧ 2 ^ 61 ≤ s.LEN.toNat ∧ t.CAUSE = 1 := by
  have kept {u : State} (hu : u.ERR = s.ERR) : u.ERR ≠ true := by simp [hu, hs]
  cases h with
  | padOverflow hlen => exact ⟨rfl, hlen, rfl⟩
  | _ => exact absurd ht (kept (by simp))

/-- No transaction of the host sets DONE or ERR: START clears both, and no other one writes them. -/
theorem exec_host_sets_no_outcome {i : Instr} {s t : State} (hi : i.isEngine = false) (h : exec i s = .next t) :
    (s.DONE = false → t.DONE = false) ∧ (s.ERR = false → t.ERR = false) := by
  obtain ⟨-, -, rfl⟩ | ⟨m, -, rfl⟩ | ⟨a, b, -, -, -, rfl⟩ | rfl | ⟨r, rfl⟩ | rfl := execHost_cases hi h <;> simp

/-- Settles O13: the host never raises ERR, and of the micro-operations only PAD does. -/
theorem onlyPadRaises : Obligations.OnlyPadRaises := by
  unfold Obligations.OnlyPadRaises
  intro i s t h hs ht
  cases hi : i.isEngine with
  | true => exact (microStep_of_exec hi h).raises hs ht
  | false =>
    obtain ⟨-, hnone⟩ := exec_host_sets_no_outcome hi h
    exact absurd ht (by simp [hnone hs])

/-! LDBLK -/

/-- What a state keeps whose schedule and sequencer alone were written. -/
theorem setW_goto_frame (s : State) (w : Vector Word 64) (p : Phase) (i : Fin 64) :
    (s.setW w).goto p i = { s with W := ((s.setW w).goto p i).W, seq := ((s.setW w).goto p i).seq } := rfl

/-- LDBLK leaves the words above the first sixteen. -/
theorem ldblk_W_high (s : State) {k : Fin 64} (hk : 16 ≤ k.val) :
    ((s.setW (loadedSchedule s)).goto .expand 16).W[k] = s.W[k] := by
  rw [goto_W, setW_W, loadedSchedule_high s k hk]

/-- Settles O14: LDBLK completes where its block can be had, and its words are those of `blockWord_eq`. -/
theorem ldblkLoadsTheBlock : Obligations.LdblkLoadsTheBlock := by
  unfold Obligations.LdblkLoadsTheBlock
  intro s hblocks hready
  refine ⟨_, execLdblk_ready hready, fun k hk => ?_, fun k hk => ldblk_W_high s hk, rfl,
    setW_goto_frame ..⟩
  rw [goto_W, setW_W, loadedSchedule_low s k hk, blockWord_eq hblocks hready hk, be32_toNat]

/-- A byte of the Padded Message depends on the block registers, LEN, MSG_BYTES and, below LEN, on one byte of
memory. -/
theorem paddedByte_congr {s t : State} {j : Nat} (hlen : s.LEN = t.LEN) (hcount : s.NBLK = t.NBLK)
    (hsize : s.MSG_BYTES = t.MSG_BYTES) (hread : j < s.LEN.toNat → s.MSG.read j = t.MSG.read j) :
    paddedByte s j = paddedByte t j := by
  by_cases hj : j < s.LEN.toNat
  · rw [paddedByte_message hj, paddedByte_message (hlen ▸ hj), engineRead, engineRead, hsize, hread hj]
  · have hj' : ¬j < t.LEN.toNat := hlen ▸ hj
    simp only [paddedByte, if_neg hj', hlen, hcount]

section

variable {s t : State} (hlen : s.LEN = t.LEN) (hcount : s.NBLK = t.NBLK) (hblk : s.blk = t.blk)
  (hsize : s.MSG_BYTES = t.MSG_BYTES)
  (hread : ∀ q < 64, 64 * s.blk.toNat + q < s.LEN.toNat →
    s.MSG.read (64 * s.blk.toNat + q) = t.MSG.read (64 * s.blk.toNat + q))

include hlen hcount hblk hsize hread

/-- Every byte of the block is the same in both states. -/
theorem paddedByte_blockIndex_congr {q : Nat} (hq : q < 64) :
    paddedByte s (blockIndex s q) = paddedByte t (blockIndex t q) := by
  rw [blockIndex, blockIndex, ← hblk]
  exact paddedByte_congr hlen hcount hsize (hread q hq)

/-- Both states lack the same byte first, or none. -/
theorem blockStop_congr : blockStop s = blockStop t := by
  rw [blockStop, blockStop, ← List.head?_filterMap, ← List.head?_filterMap]
  refine congrArg List.head? (List.filterMap_congr fun q hq => ?_)
  rw [paddedStop, paddedStop, paddedByte_blockIndex_congr hlen hcount hblk hsize hread (List.mem_range.mp hq)]

theorem blockWord_congr {k : Nat} (hk : k < 16) : blockWord s k = blockWord t k := by
  have byte {q : Nat} (hq : q < 64) : paddedValue s (blockIndex s q) = paddedValue t (blockIndex t q) := by
    rw [paddedValue, paddedValue, paddedByte_blockIndex_congr hlen hcount hblk hsize hread hq]
  rw [blockWord, blockWord, byte (by omega), byte (by omega), byte (by omega), byte (by omega)]

end

/-- LDBLK is refused for the reason that the first missing byte gives. -/
theorem execLdblk_refused_iff {s : State} {r : Refusal} : execLdblk s = .refused r ↔ blockStop s = some r := by
  rw [execLdblk]
  cases blockStop s <;> simp

/-- Settles O15: the refusal and the words depend on the block's bytes only. -/
theorem ldblkReadsOnlyItsBlock : Obligations.LdblkReadsOnlyItsBlock := by
  unfold Obligations.LdblkReadsOnlyItsBlock
  intro s t hlen hcount hblk hsize hread
  have hstop := blockStop_congr hlen hcount hblk hsize hread
  refine ⟨fun s' hs' => ?next, fun r hr => ?refused⟩
  case next =>
    obtain ⟨hready, rfl⟩ := execLdblk_cases hs'
    have hready' : t.BlockReady := by rwa [← blockStop_eq_none, ← hstop, blockStop_eq_none]
    refine ⟨_, execLdblk_ready hready', fun k hk => ?_⟩
    rw [goto_W, setW_W, goto_W, setW_W, loadedSchedule_low s k hk, loadedSchedule_low t k hk,
      blockWord_congr hlen hcount hblk hsize hread hk]
  case refused => exact execLdblk_refused_iff.mpr (hstop ▸ execLdblk_refused_iff.mp hr)

/-- The first byte of the block that cannot be had names the stop (log 11). -/
theorem blockStop_eq_some {s : State} {q : Nat} {r : Refusal} (hq : q < 64)
    (hbefore : ∀ p < q, paddedStop s (blockIndex s p) = none) (hstop : paddedStop s (blockIndex s q) = some r) :
    blockStop s = some r := by
  obtain ⟨d, hd⟩ := Nat.exists_eq_add_of_lt hq
  have hsplit : List.range 64 = List.range q ++ q :: (List.range d).map (q + 1 + ·) := by
    rw [show 64 = q + (d + 1) by omega, List.range_add, List.range_succ_eq_map]
    simp [Function.comp_def, Nat.add_assoc, Nat.add_comm 1]
  rw [blockStop, List.findSome?_eq_some_iff]
  exact ⟨_, q, _, hsplit, hstop, fun p hp => hbefore p (List.mem_range.mp hp)⟩

/-- Settles O16: the stop at the first missing byte, by what the engine's read of it answers. -/
theorem ldblkRefusesMissingBytes : Obligations.LdblkRefusesMissingBytes := by
  unfold Obligations.LdblkRefusesMissingBytes
  intro s q hq hbelow hbefore
  have refused {r : Refusal} (hr : engineRead s (blockIndex s q) = .error r) : exec .ldblk s = .refused r := by
    refine execLdblk_refused_iff.mpr (blockStop_eq_some hq (fun p hp => ?_) ?_)
    · exact paddedStop_eq_none.mpr fun _ => hbefore p hp
    · rw [paddedStop, paddedByte_message hbelow, hr]
  exact ⟨fun hbeyond => refused (engineRead_beyond hbeyond),
    fun hinside hunwritten => refused (engineRead_unwritten hinside hunwritten)⟩

/-! INIT and LDWORK -/

/-- Settles O18: the two loads as they stand, the IV words written out. -/
theorem hashStateLoads : Obligations.HashStateLoads := by
  unfold Obligations.HashStateLoads
  exact fun s => ⟨rfl, rfl⟩

/-! The access matrix -/

/-- Settles O37: way out by way out, and no micro-operation writes memory. -/
theorem engineFrame : Obligations.EngineFrame := by
  unfold Obligations.EngineFrame
  intro i s t h hi
  have hstep := microStep_of_exec hi h
  refine ⟨?pad, ?init, ?ldblk, fun n => ?expand, ?ldwork, fun n => ?round, ?feedfwd, ?finish,
    fun a => by rw [hstep.memory_frame.1]⟩
  case pad =>
    rintro rfl
    cases hstep with
    | padOverflow => exact .inr rfl
    | padAccept => exact .inl rfl
  case init => rintro rfl; cases hstep; rfl
  case ldblk => rintro rfl; cases hstep; exact ⟨setW_goto_frame .., fun k hk => ldblk_W_high s hk⟩
  case expand =>
    rintro rfl
    refine ⟨execExpand_frame h, fun k hk => ?_⟩
    have hother : (s.expandedSchedule n)[k] = s.W[k] := by
      rw [State.expandedSchedule, Fin.getElem_fin, Vector.getElem_set_ne _ _ (Fin.val_ne_of_ne hk.symm),
        Fin.getElem_fin]
    cases hstep with
    | expandNext => rw [goto_W, setW_W, hother]
    | expandLast => rw [goto_W, setW_W, hother]
  case ldwork => rintro rfl; cases hstep; rfl
  case round => rintro rfl; exact execRound_frame h
  case feedfwd => rintro rfl; exact execFeedfwd_frame h
  case finish => rintro rfl; cases hstep; rfl

end Sys2Proof.Machine
end

section
/-! The transactions of the host (44_host_interface.md R190, R196, R198 to R202): the ignored writes, the reads of the
digest, the message memory, and what no transaction can disturb (10_state.md R41, R206). -/

namespace Sys2Proof.Machine

/-! Registers -/

/-- Settles O26: the operations that ignore their data. -/
theorem ignoredWritesChangeNothing : Obligations.IgnoredWritesChangeNothing := by
  unfold Obligations.IgnoredWritesChangeNothing
  exact fun s data r j q => ⟨exec_nop s, exec_rsvdctrl data s, exec_wrstatus data s, exec_wrrsvd r data s,
    exec_wrdigest j data s, exec_wrdhex q data s⟩

/-- With DONE clear RDDIGEST answers a free value (R198, U1). -/
theorem execRddigest_of_not_done {s : State} (hd : s.DONE = false) (j : Fin 8) :
    execRddigest j s = .next s.respondFree := by
  simp [execRddigest, hd]

/-- With DONE clear RDDHEX answers a free value (R199, U1). -/
theorem execRddhex_of_not_done {s : State} (hd : s.DONE = false) (q : Fin 16) :
    execRddhex q s = .next s.respondFree := by
  simp [execRddhex, hd]

/-- Settles O32: the two branches of RDDIGEST, split on DONE. -/
theorem digestRegisters : Obligations.DigestRegisters := by
  unfold Obligations.DigestRegisters
  exact fun s j data => ⟨fun hd => execRddigest_of_done hd j, fun hd => ⟨_, execRddigest_of_not_done hd j⟩,
    exec_wrdigest j data s⟩

/-- Settles O33: the two branches of RDDHEX, split on DONE, with the characters of `be32Byte_dhexWord`. -/
theorem hexRegisters : Obligations.HexRegisters := by
  unfold Obligations.HexRegisters
  exact fun s q data =>
    ⟨fun hd => ⟨dhexWord s.H q, execRddhex_of_done hd q, fun _ hk => be32Byte_dhexWord s.H q hk⟩,
      fun hd => ⟨_, execRddhex_of_not_done hd q⟩, exec_wrdhex q data s⟩

/-- Settles O30: CAUSE follows ERR and at most one flag is set, which leaves four words. -/
theorem statusTakesFourValues : Obligations.StatusTakesFourValues := by
  unfold Obligations.StatusTakesFourValues
  intro s hs
  obtain ⟨hBD, hBE, hDE⟩ := hs.oneFlag
  have hcause := hs.cause
  cases hB : s.BUSY with
  | true =>
    have hD : s.DONE = false := by simpa [hB] using hBD
    have hE : s.ERR = false := by simpa [hB] using hBE
    simp [State.status, hcause, hB, hD, hE]
  | false =>
    cases hD : s.DONE with
    | true =>
      have hE : s.ERR = false := by simpa [hD] using hDE
      simp [State.status, hcause, hB, hD, hE]
    | false => cases hE : s.ERR <;> simp [State.status, hcause, hB, hD, hE]

/-- Settles O40: a register transaction is none of the two that can stop, and both branches of any other one answer. -/
theorem registerAccessesComplete : Obligations.RegisterAccessesComplete := by
  unfold Obligations.RegisterAccessesComplete
  intro i s hi hwr hrd
  cases i with
  | msgwr a b => exact absurd rfl (hwr a b)
  | msgrd a => exact absurd rfl (hrd a)
  | start =>
    cases hbusy : s.BUSY with
    | true => exact ⟨_, execStart_of_busy hbusy⟩
    | false => exact ⟨_, execStart_of_not_busy hbusy⟩
  | rddigest j =>
    cases hdone : s.DONE with
    | true => exact ⟨_, execRddigest_of_done hdone j⟩
    | false => exact ⟨_, execRddigest_of_not_done hdone j⟩
  | rddhex q =>
    cases hdone : s.DONE with
    | true => exact ⟨_, execRddhex_of_done hdone q⟩
    | false => exact ⟨_, execRddhex_of_not_done hdone q⟩
  | pad | init | ldblk | expand | ldwork | round | feedfwd | finish => exact absurd hi.symm Bool.false_ne_true
  | _ => exact ⟨_, rfl⟩

/-! The message memory -/

/-- MSGWR inside the memory and outside the Message of a computation in progress stores its byte (R201). -/
theorem execMsgwr_of_inside {s : State} {addr : BitVec 61} (hin : addr.toNat < s.MSG_BYTES)
    (hduty : ¬(s.BUSY = true ∧ addr.toNat < s.LEN.toNat)) (byte : Byte) :
    execMsgwr addr byte s = .next (s.storeByte addr.toNat byte) := by
  rw [execMsgwr, if_neg (Nat.not_le.mpr hin), if_neg hduty]

/-- MSGRD of a byte that is held answers it (R202). -/
theorem execMsgrd_of_held {s : State} {addr : BitVec 61} {b : Byte} (hin : addr.toNat < s.MSG_BYTES)
    (hb : s.MSG.read addr.toNat = some b) : execMsgrd addr s = .next (s.respond (.byte b)) := by
  simp only [execMsgrd, if_neg (Nat.not_le.mpr hin), hb]

/-- Settles O34: the law of a read after a write, at the same and at another address. -/
theorem msgwrStoresOneByte : Obligations.MsgwrStoresOneByte := by
  unfold Obligations.MsgwrStoresOneByte
  exact fun s addr byte hin hduty => ⟨_, execMsgwr_of_inside hin hduty byte, Memory.read_write_same _ _ _,
    fun _ ha => Memory.read_write_other ha, rfl⟩

/-- Settles O35: the byte stored is still held after a write to another address. -/
theorem msgrdReturnsTheLastWrite : Obligations.MsgrdReturnsTheLastWrite := by
  unfold Obligations.MsgrdReturnsTheLastWrite
  refine ⟨fun s addr b hin hb => execMsgrd_of_held hin hb, fun s t u addr other b c ht hu hne => ?_⟩
  obtain ⟨hin, -, rfl⟩ := execMsgwr_cases ht
  obtain ⟨-, -, rfl⟩ := execMsgwr_cases hu
  refine execMsgrd_of_held hin ?_
  have hne' : addr.toNat ≠ other.toNat := fun h => hne (BitVec.eq_of_toNat_eq h.symm)
  rw [storeByte_MSG, Memory.read_write_other hne', storeByte_MSG, Memory.read_write_same]

/-- Settles O36: the guards of the two transactions, in their order. -/
theorem messageTransactionsStop : Obligations.MessageTransactionsStop := by
  unfold Obligations.MessageTransactionsStop
  refine fun s addr byte => ⟨fun hbeyond => ⟨?_, ?_⟩, fun hin hbusy hbelow => ?_, fun hin hnone => ?_⟩
  · rw [exec_msgwr, execMsgwr, if_pos hbeyond]
  · rw [exec_msgrd, execMsgrd, if_pos hbeyond]
  · rw [exec_msgwr, execMsgwr, if_neg (Nat.not_le.mpr hin), if_pos ⟨hbusy, hbelow⟩]
  · simp only [exec_msgrd, execMsgrd, if_neg (Nat.not_le.mpr hin), hnone]

/-! What no transaction disturbs -/

/-- Settles O38: START, a length write, a byte stored, or no more than an answer. -/
theorem hostFrame : Obligations.HostFrame := by
  unfold Obligations.HostFrame
  intro i s t h hi
  obtain ⟨rfl, -, rfl⟩ | ⟨m, ⟨d, hwrite⟩, rfl⟩ | ⟨addr, b, rfl, -, -, rfl⟩ | rfl | ⟨r, rfl⟩ | rfl :=
    execHost_cases hi h
  case inl => simp
  case inr.inl =>
    obtain rfl | rfl := hwrite <;> simp
  case inr.inr.inl =>
    refine ⟨by simp, by simp, by simp, fun a ha => ?_⟩
    rw [storeByte_MSG, Memory.read_write_other (ha addr b rfl)]
  all_goals simp

/-- While BUSY a transaction that completes leaves every field but MLEN, MSG and the host's answers, and every byte
below LEN. -/
theorem exec_host_of_busy {i : Instr} {s t : State} (hi : i.isEngine = false) (h : exec i s = .next t)
    (hbusy : s.BUSY = true) :
    t = { s with MLEN := t.MLEN, MSG := t.MSG, outputs := t.outputs, freeCtr := t.freeCtr } ∧
      ∀ a < s.LEN.toNat, t.MSG.read a = s.MSG.read a := by
  obtain ⟨-, hnot, -⟩ | ⟨m, -, rfl⟩ | ⟨addr, b, -, -, hduty, rfl⟩ | rfl | ⟨r, rfl⟩ | rfl := execHost_cases hi h
  case inl => exact absurd hbusy (by simp [hnot])
  case inr.inr.inl =>
    refine ⟨rfl, fun a ha => Memory.read_write_other ?_⟩
    rintro rfl
    exact hduty ⟨hbusy, ha⟩
  all_goals exact ⟨rfl, fun _ _ => rfl⟩

/-- Settles O39: `exec_host_of_busy`, and the Message is its bytes below LEN. -/
theorem hostCannotDisturbAComputation : Obligations.HostCannotDisturbAComputation := by
  unfold Obligations.HostCannotDisturbAComputation
  intro i s t h hi hbusy
  obtain ⟨hframe, hbytes⟩ := exec_host_of_busy hi h hbusy
  have hlen : t.LEN = s.LEN := by rw [hframe]
  exact ⟨hframe, hbytes, message_congr hlen fun a ha => hbytes a (hlen ▸ ha)⟩

end Sys2Proof.Machine
end

section
/-! The step (00_scope.md R12, 44_host_interface.md R203, 70_reset_and_hazards.md R251): whose turn it is, the successor
of every sequencer value, RESET, and the race of a START with the end of a computation (60_exceptions.md R230). -/

namespace Sys2Proof.Machine

/-- The state with its next input taken, where the rest of the inputs is named. -/
theorem dropInput_of_cons {s : State} {x : Input} {rest : List Input} (h : s.inputs = x :: rest) :
    s.dropInput = { s with inputs := rest } := by
  rw [State.dropInput, h, List.tail_cons]

/-- Settles O41: the three kinds of turn that bring a word. -/
theorem stepRunsTheDecodedOperation : Obligations.StepRunsTheDecodedOperation := by
  unfold Obligations.StepRunsTheDecodedOperation
  refine fun s i => ⟨fun hw rest hin hd => ?host, fun rest hin hd => ?engine, fun hin hd => ?empty⟩
  case host => rw [step_host hin, dropInput_of_cons hin, Except.ok.inj hd]
  case engine => rw [step_engine (.inr ⟨rest, hin⟩) hd, dropInput_of_cons hin]
  case empty => rw [step_engine (.inl hin) hd, dropInput_of_nil hin]

/-- In the engine's turn a word of `seq` that decodes to nothing and is not IDLE is stuck (R106). -/
theorem step_stuck {s : State} (hturn : s.EngineTurn) (hidle : s.seq ≠ seqWord .idle 0)
    (hnone : ∀ i, decode (.seq s.seq) ≠ .ok i) : step s = .fault .stuckSequencer := by
  have hnot : ¬s.isIdle = true := fun h => hidle ((isIdle_iff s).mp h)
  rw [step, nextTurn_engine hturn, engineTurn, if_neg hnot]
  cases hd : decode (.seq s.seq) with
  | ok i => exact absurd hd (hnone i)
  | error e => simp only [hd]; rfl

/-- Settles O42: the two turns of the engine without a micro-operation. -/
theorem idleAndStuckTurns : Obligations.IdleAndStuckTurns := by
  unfold Obligations.IdleAndStuckTurns
  intro s hin
  refine ⟨fun hidle => ?_, fun hidle hnone => step_stuck (.inl hin) hidle hnone⟩
  rw [step_idle (.inl hin) hidle, dropInput_of_nil hin]

/-! The successors -/

/-- With no input left, a step from a word that encodes a micro-operation is that micro-operation. -/
theorem microStep_of_step {s t : State} {i : Instr} (hin : s.inputs = []) (hwf : i.wf = true)
    (hseq : encode i = .seq s.seq) (h : step s = .next t) : MicroStep i s t := by
  have hdecode : decode (.seq s.seq) = .ok i := by rw [← hseq]; exact decodeEncodeRoundTrip i hwf
  rw [step_engine (.inl hin) hdecode, dropInput_of_nil hin] at h
  exact microStep_of_exec (decodeSeq_isEngine hdecode) h

/-- The words of EXPAND and ROUND by value: their index is what exceeds the phase's first word. -/
theorem eq_seqWord_of_toNat {w : BitVec 10} {p : Phase} {k : Nat} (hk : k < 64)
    (h : w.toNat = 64 * p.code.toNat + k) : w = seqWord p ⟨k, hk⟩ :=
  (eq_seqWord_iff hk h p ⟨k, hk⟩).mpr ⟨rfl, rfl⟩

/-- EXPAND's successor by value. -/
theorem step_seq_of_expand {s t : State} (hin : s.inputs = []) (h : step s = .next t) (h1 : 0x110 ≤ s.seq.toNat)
    (h2 : s.seq.toNat ≤ 0x13f) : t.seq.toNat = s.seq.toNat + 1 := by
  obtain ⟨k, hk⟩ := Nat.exists_eq_add_of_le (show 0x100 ≤ s.seq.toNat by omega)
  have hk64 : k < 64 := by omega
  have hk16 : 16 ≤ k := by omega
  have hseq := eq_seqWord_of_toNat (p := .expand) hk64 hk
  have hexec := exec_of_microStep
    (microStep_of_step (i := .expand ⟨k, hk64⟩) hin (decide_eq_true hk16) (congrArg Code.seq hseq.symm) h)
  rw [execExpand_seq_toNat hexec, hk]
  simp only
  split_ifs <;> omega

/-- ROUND's successor by value. -/
theorem step_seq_of_round {s t : State} (hin : s.inputs = []) (h : step s = .next t) (h1 : 0x180 ≤ s.seq.toNat)
    (h2 : s.seq.toNat ≤ 0x1bf) : t.seq.toNat = s.seq.toNat + 1 := by
  obtain ⟨k, hk⟩ := Nat.exists_eq_add_of_le h1
  have hk64 : k < 64 := by omega
  have hseq := eq_seqWord_of_toNat (p := .round) hk64 hk
  have hexec := exec_of_microStep
    (microStep_of_step (i := .round ⟨k, hk64⟩) hin rfl (congrArg Code.seq hseq.symm) h)
  rw [execRound_seq_toNat hexec, hk]
  simp only
  split_ifs <;> omega

/-- Settles O43: the micro-operation that each word encodes, and where it goes. -/
theorem sequencerFollowsTheGraph : Obligations.SequencerFollowsTheGraph := by
  unfold Obligations.SequencerFollowsTheGraph
  intro s t hin h
  have micro {i : Instr} {w : BitVec 10} (hw : s.seq = w) (hwf : i.wf = true) (hi : encode i = .seq w) :
      MicroStep i s t := microStep_of_step hin hwf (hw ▸ hi) h
  refine ⟨fun hw hlen => ?accept, fun hw hlen => ?overflow, fun hw => ?init, fun hw => ?ldblk, fun h1 h2 => ?expand,
    fun hw => ?expandLast, fun hw => ?ldwork, fun h1 h2 => ?round, fun hw => ?roundLast, fun hw hmore => ?next,
    fun hw hlast => ?last, fun hw => ?finish⟩
  case accept =>
    cases micro (i := .pad) hw rfl rfl with
    | padAccept => rfl
    | padOverflow => omega
  case overflow =>
    cases micro (i := .pad) hw rfl rfl with
    | padAccept => omega
    | padOverflow => exact ⟨rfl, rfl⟩
  case init => cases micro (i := .init) hw rfl rfl; rfl
  case ldblk => cases micro (i := .ldblk) hw rfl rfl; rfl
  case expand => exact step_seq_of_expand hin h h1 h2.le
  case expandLast =>
    have hnat : s.seq.toNat = 0x13f := congrArg BitVec.toNat hw
    exact BitVec.eq_of_toNat_eq ((step_seq_of_expand hin h (by omega) hnat.le).trans (congrArg (· + 1) hnat))
  case ldwork => cases micro (i := .ldwork) hw rfl rfl; rfl
  case round => exact step_seq_of_round hin h h1 h2.le
  case roundLast =>
    have hnat : s.seq.toNat = 0x1bf := congrArg BitVec.toNat hw
    exact BitVec.eq_of_toNat_eq ((step_seq_of_round hin h (by omega) hnat.le).trans (congrArg (· + 1) hnat))
  case next =>
    obtain ⟨hblk, hseq⟩ := execFeedfwd_next_block (exec_of_microStep (micro (i := .feedfwd) hw rfl rfl)) hmore
    exact ⟨hseq, hblk⟩
  case last =>
    exact (execFeedfwd_last_block (exec_of_microStep (micro (i := .feedfwd) hw rfl rfl)) hlast.ge).2
  case finish => cases micro (i := .finish) hw rfl rfl; exact ⟨rfl, rfl⟩

/-! RESET -/

theorem status_resetEvent (s : State) : s.resetEvent.status = 0 := by
  simp [State.status, State.reset]

/-- Settles O44: the state of RESET and the fields that it keeps. -/
theorem resetEventLeaves : Obligations.ResetEventLeaves := by
  unfold Obligations.ResetEventLeaves
  intro s rest hin
  have hstep : step s = .next s.dropInput.resetEvent := by rw [step, nextTurn, hin]
  have hrest : s.dropInput.inputs = rest := by rw [dropInput_inputs, hin, List.tail_cons]
  exact ⟨_, hstep, rfl, rfl, rfl, rfl, rfl, rfl, fun _ => rfl, status_resetEvent _, rfl, hrest, rfl,
    rfl⟩

/-- Settles O45: the fields of the state after reset. -/
theorem resetStateValues : Obligations.ResetStateValues := by
  unfold Obligations.ResetStateValues
  exact ⟨rfl, rfl, rfl, rfl, rfl, rfl, rfl, fun _ => rfl⟩

/-- Settles O47: RESET establishes the invariants, and nothing has been computed in IDLE. -/
theorem resetKeepsInvariants : Obligations.ResetKeepsInvariants := by
  unfold Obligations.ResetKeepsInvariants
  exact ⟨inv_resetEvent (s := State.reset) (Nat.le_refl _), State.DigestInv.of_idle rfl⟩

/-! START and the end of a computation -/

/-- The word of the start command decodes to START. -/
theorem step_startCommand {s : State} {rest : List Input} (h : s.inputs = startCommand :: rest) :
    step s = execStart s.dropInput :=
  step_host h

/-- The step at FINISH in the engine's turn. -/
theorem step_finish {s : State} (hturn : s.EngineTurn) (hseq : s.seq = 0x200#10) :
    step s = .next (s.dropInput.flagsFinished.goto .idle 0) :=
  step_of_microStep (i := .finish) hturn rfl (congrArg Code.seq hseq.symm) .finish

/-- Two steps, from the outcome of each. -/
theorem steps_two {s t u : State} (h1 : step s = .next t) (h2 : step t = .next u) : steps 2 s = .next u := by
  rw [steps_succ_of_step h1, steps_succ_of_step h2, steps_zero]

/-- Settles O46: the busy branch of START before FINISH, the accepting one after it. -/
theorem startRacingTheEnd : Obligations.StartRacingTheEnd := by
  unfold Obligations.StartRacingTheEnd
  refine fun s rest hseq hbusy => ⟨fun hin => ?before, fun hin => ?after⟩
  case before =>
    have hdrop : s.dropInput = { s with inputs := .engine :: rest } := dropInput_of_cons hin
    have h1 : step s = .next s.dropInput := (step_startCommand hin).trans (execStart_of_busy hbusy)
    have h2 := step_finish (s := s.dropInput) (.inr ⟨rest, by rw [hdrop]⟩) hseq
    refine ⟨_, steps_two h1 h2, ?_⟩
    rw [hdrop]
    rfl
  case after =>
    have hdrop : s.dropInput = { s with inputs := startCommand :: rest } := dropInput_of_cons hin
    have h1 := step_finish (.inr ⟨_, hin⟩) hseq
    have h2 := (step_startCommand (s := s.dropInput.flagsFinished.goto .idle 0) (by rw [hdrop]; rfl)).trans
      (execStart_of_not_busy rfl)
    refine ⟨_, steps_two h1 h2, ?_⟩
    rw [hdrop]
    rfl

end Sys2Proof.Machine
end

section
/-! Consequences of the invariants for one step: the digest that FINISH publishes, the outcome that stays
(43_formatter.md R180, 60_exceptions.md R227), and the engine that always proceeds (44_host_interface.md R205). -/

namespace Sys2Proof.Machine

/-! The published digest -/

/-- A micro-operation that sets DONE is FINISH. -/
theorem MicroStep.eq_finish_of_done {i : Instr} {s t : State} (h : MicroStep i s t) (hs : s.DONE = false)
    (ht : t.DONE = true) : i = .finish := by
  have kept {u : State} (hu : u.DONE = s.DONE) : u.DONE ≠ true := by simp [hu, hs]
  cases h with
  | finish => rfl
  | padOverflow => exact absurd ht Bool.false_ne_true
  | _ => exact absurd ht (kept (by simp))

/-- Settles O50: the step that sets DONE is FINISH, which leaves H; there `DigestInv` says that H is the digest. -/
theorem publishedDigestIsSha256 : Obligations.PublishedDigestIsSha256 := by
  unfold Obligations.PublishedDigestIsSha256
  intro s t _ hdigest hs h ht
  have hs' : s.dropInput.DONE = false := hs
  obtain ⟨-, rfl⟩ | ⟨-, -, rfl⟩ | ⟨hw, rest, -, hexec⟩ | ⟨i, -, -, hseq, hmicro⟩ := step_cases_micro h
  · exact absurd ht Bool.false_ne_true
  · exact absurd ht (by simp [hs])
  · obtain ⟨hnone, -⟩ := exec_host_sets_no_outcome (decodeHost_isEngine hw) hexec
    exact absurd ht (by simp [hnone hs'])
  · obtain rfl := hmicro.eq_finish_of_done hs' ht
    refine ⟨?_, hmicro.message_eq⟩
    cases hmicro
    exact hdigest.finish (Code.seq.inj hseq).symm

/-! The outcome -/

/-- Only the start command decodes to START. -/
theorem eq_startCommand_of_decodeHost {hw : HostWord} (h : decodeHost hw = .start) : .host hw = startCommand := by
  obtain ⟨-, hregx, hmsgx⟩ := eachWordHasOneMeaning
  cases hw with
  | regx sel data =>
    obtain ⟨i, hi, -, -, hencode⟩ := hregx sel data
    obtain rfl : Instr.start = i := h.symm.trans (Except.ok.inj hi)
    obtain ⟨rfl, hdata⟩ := HostWord.regx.inj (Code.host.inj hencode)
    rw [getLsbD_regSel, if_pos rfl] at hdata
    rw [← hdata]
    rfl
  | msgx sel byte =>
    obtain ⟨i, hi, -, -, hencode⟩ := hmsgx sel byte
    obtain rfl : Instr.start = i := h.symm.trans (Except.ok.inj hi)
    cases hencode

/-- A transaction other than START leaves the flags and H. -/
theorem exec_host_keeps_outcome {i : Instr} {s t : State} (hi : i.isEngine = false) (h : exec i s = .next t)
    (hstart : i ≠ .start) :
    t.DONE = s.DONE ∧ t.ERR = s.ERR ∧ t.CAUSE = s.CAUSE ∧ t.BUSY = s.BUSY ∧ t.H = s.H := by
  obtain ⟨⟨hH, -⟩, hflags, -⟩ := hostFrame i s t h hi
  obtain ⟨-, -, hB, hD, hE, hC⟩ := hflags hstart
  exact ⟨hD, hE, hC, hB, hH⟩

/-- Settles O51: an idle engine takes no micro-operation, so the step is an idle turn or a transaction other than START,
neither of which touches the outcome. -/
theorem outcomeStaysUntilStart : Obligations.OutcomeStaysUntilStart := by
  unfold Obligations.OutcomeStaysUntilStart
  intro s t hinv hbusy h hreset hstart
  have hidle : s.seq = seqWord .idle 0 := by simpa [hbusy] using hinv.busy
  obtain ⟨⟨rest, hin⟩, -⟩ | ⟨-, -, rfl⟩ | ⟨hw, rest, hin, hexec⟩ | ⟨i, -, hwf, hseq, -⟩ := step_cases_micro h
  · exact absurd hin (hreset rest)
  · exact ⟨rfl, rfl, rfl, hbusy, rfl⟩
  · have hother : decodeHost hw ≠ .start := fun hd =>
      hstart rest (by rw [hin, eq_startCommand_of_decodeHost hd])
    obtain ⟨hD, hE, hC, hB, hH⟩ := exec_host_keeps_outcome (decodeHost_isEngine hw) hexec hother
    exact ⟨hD, hE, hC, hB.trans hbusy, hH⟩
  · exact absurd hidle (seq_ne_idle_of_encode hwf hseq)

/-! The engine proceeds -/

/-- With no input left a step is an idle turn, which changes nothing, or a micro-operation. -/
theorem step_cases_of_noInput {s t : State} (hin : s.inputs = []) (h : step s = .next t) :
    (s.seq = seqWord .idle 0 ∧ t = s) ∨ ∃ i : Instr, i.wf = true ∧ encode i = .seq s.seq ∧ MicroStep i s t := by
  have hdrop := dropInput_of_nil hin
  obtain ⟨⟨rest, hreset⟩, -⟩ | ⟨-, hidle, rfl⟩ | ⟨hw, rest, hhost, -⟩ | ⟨i, -, hwf, hseq, hmicro⟩ := step_cases_micro h
  · exact absurd (hin.symm.trans hreset) (by simp)
  · exact .inl ⟨hidle, hdrop⟩
  · exact absurd (hin.symm.trans hhost) (by simp)
  · rw [hdrop] at hseq hmicro
    exact .inr ⟨i, hwf, hseq, hmicro⟩

/-- A micro-operation has a next state unless it is LDBLK of a block that cannot be had. -/
theorem exists_microStep {i : Instr} (hwf : i.wf = true) (hi : i.isEngine = true) (s : State)
    (hready : i = .ldblk → s.BlockReady) : ∃ t, MicroStep i s t := by
  have of_exec (h : ∃ t, exec i s = .next t) : ∃ t, MicroStep i s t := h.imp fun _ => microStep_of_exec hi
  cases i with
  | pad =>
    obtain hlen | hlen := Nat.lt_or_ge s.LEN.toNat (2 ^ 61)
    · exact ⟨_, .padAccept hlen⟩
    · exact ⟨_, .padOverflow hlen⟩
  | init => exact ⟨_, .init⟩
  | ldblk => exact ⟨_, .ldblk (hready rfl)⟩
  | expand k => exact of_exec (execExpand_completes (of_decide_eq_true hwf) s)
  | ldwork => exact ⟨_, .ldwork⟩
  | round k => exact of_exec (execRound_completes k s)
  | feedfwd => exact of_exec (execFeedfwd_completes s)
  | finish => exact ⟨_, .finish⟩
  | _ => exact absurd hi Bool.false_ne_true

/-- A state from which the engine can run to the end by itself: a legal sequencer and block registers, no input left,
and, where PAD accepts the length, the Message at hand. -/
structure State.CanRun (s : State) : Prop where
  control : s.ControlOk
  noInput : s.inputs = []
  ready : s.LEN.toNat < 2 ^ 61 → s.MessageReady s.LEN.toNat

/-- The engine proceeds. -/
theorem State.CanRun.exists_step {s : State} (hs : s.CanRun) : ∃ t, step s = .next t := by
  have hturn : s.EngineTurn := .inl hs.noInput
  have hdrop := dropInput_of_nil hs.noInput
  obtain hidle | ⟨i, hi⟩ := hs.control.sequencer
  · exact ⟨_, step_idle hturn hidle⟩
  · obtain ⟨hwf, hseq⟩ := encode_of_decodeSeq hi
    have hready : i = .ldblk → s.BlockReady := by
      rintro rfl
      obtain ⟨hlen, -, -⟩ := hs.control.blocksOk hwf hseq (by simp)
      exact fun q _ hq => hs.ready hlen _ hq
    obtain ⟨t, ht⟩ := exists_microStep hwf (decodeSeq_isEngine hi) s hready
    exact ⟨t, step_of_microStep hturn hwf hseq (hdrop.symm ▸ ht)⟩

/-- Settles O52: such a state can run. -/
theorem engineAlwaysProceeds : Obligations.EngineAlwaysProceeds := by
  unfold Obligations.EngineAlwaysProceeds
  intro s hinv hin hready
  obtain ⟨-, -, hcontrol⟩ := (inv_iff s).mp hinv
  exact State.CanRun.exists_step ⟨hcontrol, hin, hready⟩

/-- No micro-operation touches the inputs. -/
theorem MicroStep.inputs_eq {i : Instr} {s t : State} (h : MicroStep i s t) : t.inputs = s.inputs :=
  (exec_keeps_inputs (exec_of_microStep h)).2

/-- A step of the engine leaves a state from which it can run on. -/
theorem State.CanRun.of_step {s t : State} (hs : s.CanRun) (h : step s = .next t) : t.CanRun := by
  obtain ⟨-, rfl⟩ | ⟨i, hwf, hseq, hmicro⟩ := step_cases_of_noInput hs.noInput h
  · exact hs
  · obtain ⟨hmsg, hsize, hlen⟩ := hmicro.memory_frame
    refine ⟨hmicro.controlOk hwf hseq hs.control, hmicro.inputs_eq.trans hs.noInput, ?_⟩
    rw [State.MessageReady, hmsg, hsize, hlen]
    exact hs.ready

end Sys2Proof.Machine
end

section
/-! Whole computations without a host (44_host_interface.md R204, R205): the turns of one block, the blocks of a
Message, and what a computation depends on (42_compress.md R164, R165, R175). -/

namespace Sys2Proof.Machine

/-! Runs -/

/-- Runs compose. -/
theorem steps_trans {m n : Nat} {s t u : State} (h1 : steps m s = .next t) (h2 : steps n t = .next u) :
    steps (m + n) s = .next u := by
  rw [steps_add h1, h2]

theorem steps_one {s t : State} (h : step s = .next t) : steps 1 s = .next t := steps_succ_of_step h

/-- A run of at least one step begins with a step. -/
theorem exists_step_of_steps_succ {n : Nat} {s t : State} (h : steps (n + 1) s = .next t) :
    ∃ u, step s = .next u ∧ steps n u = .next t := by
  rw [steps] at h
  cases hs : step s with
  | next u => rw [hs] at h; exact ⟨u, rfl, h⟩
  | fault r => rw [hs] at h; cases h
  | refused r => rw [hs] at h; cases h

/-- A run passes through a state after every smaller number of steps. -/
theorem exists_steps_of_add {m n : Nat} {s t : State} (h : steps (m + n) s = .next t) :
    ∃ u, steps m s = .next u ∧ steps n u = .next t := by
  induction m generalizing s with
  | zero => exact ⟨s, rfl, by rwa [Nat.zero_add] at h⟩
  | succ m ih =>
    rw [Nat.add_right_comm] at h
    obtain ⟨u, hu, hut⟩ := exists_step_of_steps_succ h
    obtain ⟨v, hv, hvt⟩ := ih hut
    exact ⟨v, by rw [steps_succ_of_step hu, hv], hvt⟩

/-- An idle engine without input stays as it is. -/
theorem steps_idle {s : State} (hin : s.inputs = []) (hidle : s.seq = seqWord .idle 0) (n : Nat) :
    steps n s = .next s := by
  have hstep : step s = .next s := by rw [step_idle (.inl hin) hidle, dropInput_of_nil hin]
  induction n with
  | zero => rfl
  | succ n ih => rw [steps_succ_of_step hstep, ih]

/-- With no input left, a micro-operation whose word stands in `seq` is the step. -/
theorem step_of_microStep_nil {s t : State} {i : Instr} (hin : s.inputs = []) (hwf : i.wf = true)
    (hseq : encode i = .seq s.seq) (h : MicroStep i s t) : step s = .next t :=
  step_of_microStep (.inl hin) hwf hseq ((dropInput_of_nil hin).symm ▸ h)

/-! One block -/

/-- How many turns a block still takes from micro-operation `i` of it on, FEEDFWD included (R204). -/
def turnsLeft : Instr → Nat
  | .ldblk => 115
  | .expand i => 130 - i.val
  | .ldwork => 66
  | .round i => 65 - i.val
  | .feedfwd => 1
  | _ => 0

/-- A micro-operation within a block goes on to one with a turn less to go. -/
theorem MicroStep.exists_next {i : Instr} {s t : State} (h : MicroStep i s t) (hin : inBlock i = true) :
    ∃ j : Instr, j.wf = true ∧ encode j = .seq t.seq ∧ turnsLeft i = turnsLeft j + 1 ∧
      (inBlock j = true ∨ j = .feedfwd) := by
  cases h with
  | ldblk => exact ⟨.expand 16, rfl, rfl, rfl, .inl rfl⟩
  | @expandNext _ i j hi hj =>
    have h16 : 16 ≤ j.val := by omega
    exact ⟨.expand j, decide_eq_true h16, rfl, by simp only [turnsLeft]; omega, .inl rfl⟩
  | expandLast hi => exact ⟨.ldwork, rfl, rfl, by simp only [turnsLeft, hi], .inl rfl⟩
  | ldwork => exact ⟨.round 0, rfl, rfl, rfl, .inl rfl⟩
  | @roundNext _ i j hj => exact ⟨.round j, rfl, rfl, by simp only [turnsLeft]; omega, .inl rfl⟩
  | roundLast hi => exact ⟨.feedfwd, rfl, rfl, by simp only [turnsLeft, hi], .inr rfl⟩
  | _ => exact absurd hin Bool.false_ne_true

/-- A micro-operation within a block writes a..h, W and `seq` only. -/
theorem MicroStep.block_frame {i : Instr} {s t : State} (h : MicroStep i s t) (hin : inBlock i = true) :
    t = { s with V := t.V, W := t.W, seq := t.seq } := by
  cases h with
  | ldblk | expandNext | expandLast => rw [setW_goto_frame]
  | ldwork | roundNext | roundLast => rfl
  | _ => exact absurd hin Bool.false_ne_true

theorem two_le_turnsLeft {i : Instr} (hin : inBlock i = true) : 2 ≤ turnsLeft i := by
  cases i with
  | ldblk | ldwork => simp [turnsLeft]
  | expand k | round k => simp only [turnsLeft]; omega
  | _ => exact absurd hin Bool.false_ne_true

theorem isEngine_of_inBlock {i : Instr} (hin : inBlock i = true) : i.isEngine = true := by
  cases i with
  | ldblk | expand | ldwork | round => rfl
  | _ => exact absurd hin Bool.false_ne_true

/-- From any micro-operation of a block the engine comes to FEEDFWD with what the block has computed. -/
theorem run_to_feedfwd {n : Nat} {s : State} {i : Instr} {h : Vector Word 8} (hwf : i.wf = true)
    (hseq : encode i = .seq s.seq) (hplace : inBlock i = true ∨ i = .feedfwd) (hleft : turnsLeft i = n + 1)
    (hin : s.inputs = []) (hblocks : s.BlocksOk) (hready : s.BlockReady)
    (hs : s.BlockAt h (blockByte s.message s.blk.toNat) i) :
    ∃ t, steps n s = .next t ∧ t.seq = seqWord .feedfwd 0 ∧
      t.BlockAt h (blockByte s.message s.blk.toNat) .feedfwd ∧ t = { s with V := t.V, W := t.W, seq := t.seq } := by
  induction n generalizing s i with
  | zero =>
    obtain hblock | rfl := hplace
    · have := two_le_turnsLeft hblock
      omega
    · exact ⟨s, rfl, (Code.seq.inj hseq).symm, hs, rfl⟩
  | succ n ih =>
    obtain hblock | rfl := hplace
    · obtain ⟨t, hstep⟩ := exists_microStep hwf (isEngine_of_inBlock hblock) s fun _ => hready
      obtain ⟨j, hj, hjseq, hturns, hjplace⟩ := hstep.exists_next hblock
      have hframe := hstep.block_frame hblock
      have ht := hstep.blockAt hblock (fun _ => ⟨hblocks, rfl⟩) hs hj hjseq
      rw [← hstep.message_eq, ← hstep.blk_eq hblock] at ht ⊢
      obtain ⟨u, hrun, huseq, hu, huframe⟩ := ih hj hjseq hjplace (by omega) (hstep.inputs_eq.trans hin)
        (by rw [hframe]; exact hblocks) (by rw [hframe]; exact hready) ht
      refine ⟨u, ?_, huseq, hu, by rw [huframe, hframe]⟩
      rw [steps_succ_of_step (step_of_microStep_nil hin hwf hseq hstep), hrun]
    · simp [turnsLeft] at hleft

/-- From LDBLK the engine compresses the block in 115 steps. -/
theorem run_block {s : State} (hseq : s.seq = seqWord .ldblk 0) (hin : s.inputs = []) (hblocks : s.BlocksOk)
    (hready : s.BlockReady) :
    ∃ t, steps 115 s = .next t ∧ t.H = compressBlock s.H (blockByte s.message s.blk.toNat) ∧
      (s.blk.toNat + 1 < s.NBLK.toNat → t.blk.toNat = s.blk.toNat + 1 ∧ t.seq = seqWord .ldblk 0) ∧
      (s.blk.toNat + 1 = s.NBLK.toNat → t.blk = s.blk ∧ t.seq = seqWord .finish 0) ∧
      t = { s with H := t.H, V := t.V, W := t.W, blk := t.blk, seq := t.seq } := by
  obtain ⟨u, hrun, huseq, hu, huframe⟩ := run_to_feedfwd (n := 114) (i := .ldblk) (h := s.H) rfl
    (congrArg Code.seq hseq.symm) (.inl rfl) rfl hin hblocks hready rfl
  obtain ⟨t, ht⟩ := execFeedfwd_completes u
  have hblk : u.blk = s.blk := by rw [huframe]
  have hcount : u.NBLK = s.NBLK := by rw [huframe]
  have hin' : u.inputs = [] := by rw [huframe]; exact hin
  have hstep := step_of_microStep_nil (i := .feedfwd) hin' rfl (congrArg Code.seq huseq.symm)
    (microStep_of_exec rfl ht)
  have hnext := execFeedfwd_next_block ht
  have hlast := execFeedfwd_last_block ht
  rw [hblk, hcount] at hnext hlast
  refine ⟨t, steps_trans hrun (steps_one hstep), ?_, hnext, fun heq => hlast heq.ge, ?_⟩
  · rw [execFeedfwd_H ht, hu.feedForward_eq]
  · rw [execFeedfwd_frame ht, huframe]

/-- Settles O53: `run_block`. -/
theorem oneBlockIsCompress : Obligations.OneBlockIsCompress := by
  unfold Obligations.OneBlockIsCompress
  exact fun s hseq hin hblocks hready => run_block hseq hin hblocks hready

/-! All blocks -/

/-- The bytes of any block of the Message are at hand once the Message is. -/
theorem State.MessageReady.blockReady {s : State} (h : s.MessageReady s.LEN.toNat) : s.BlockReady :=
  fun _ _ hq => h _ hq

/-- From LDBLK the engine compresses the current block and the later ones, and comes to FINISH with the digest. -/
theorem run_blocks {k : Nat} {s : State} (hk : s.blk.toNat + k + 1 = s.NBLK.toNat) (hseq : s.seq = seqWord .ldblk 0)
    (hin : s.inputs = []) (hblocks : s.BlocksOk) (hready : s.MessageReady s.LEN.toNat) (hhash : s.HashOk) :
    ∃ t, steps (115 * (k + 1)) s = .next t ∧ t.seq = seqWord .finish 0 ∧ t.H = sha256 s.message ∧
      t = { s with H := t.H, V := t.V, W := t.W, blk := t.blk, seq := t.seq } := by
  induction k generalizing s with
  | zero =>
    obtain ⟨t, hrun, hH, -, hlast, hframe⟩ := run_block hseq hin hblocks hready.blockReady
    obtain ⟨-, hcount, -⟩ := hblocks
    have hlen : messageBlocks s.message.length = s.blk.toNat + 1 := by rw [length_message]; omega
    exact ⟨t, hrun, (hlast hk).2, by rw [hH, hhash, sha256, hlen, hashAfter], hframe⟩
  | succ k ih =>
    obtain ⟨u, hrun, huH, hnext, -, huframe⟩ := run_block hseq hin hblocks hready.blockReady
    obtain ⟨hlen, hcount, -⟩ := hblocks
    obtain ⟨hublk, huseq⟩ := hnext (by omega)
    have hLEN : u.LEN = s.LEN := by rw [huframe]
    have hNBLK : u.NBLK = s.NBLK := by rw [huframe]
    have hmessage : u.message = s.message := by rw [huframe]; rfl
    have hublocks : u.BlocksOk := by
      rw [State.BlocksOk, hLEN, hNBLK, hublk]
      exact ⟨hlen, hcount, by omega⟩
    have huhash : u.HashOk := by rw [State.HashOk, huH, hhash, hmessage, hublk, hashAfter]
    obtain ⟨t, hrun', htseq, htH, htframe⟩ := ih (by rw [hublk, hNBLK]; omega) huseq (by rw [huframe]; exact hin)
      hublocks (by rw [huframe]; exact hready) huhash
    refine ⟨t, ?_, htseq, htH.trans (by rw [hmessage]), by rw [htframe, huframe]⟩
    rw [show 115 * (k + 1 + 1) = 115 + 115 * (k + 1) by omega]
    exact steps_trans hrun hrun'

/-- The state at LDBLK of block 0, after PAD and INIT. -/
def State.atFirstBlock (s : State) : State :=
  (((s.setBlocks (blockCount s.LEN) 0).goto .init 0).setH initIV).goto .ldblk 0

/-- PAD and INIT, for a length that PAD accepts. -/
theorem steps_to_first_block {s : State} (hseq : s.seq = seqWord .pad 0) (hin : s.inputs = [])
    (hlen : s.LEN.toNat < 2 ^ 61) : steps 2 s = .next s.atFirstBlock := by
  have hpad := step_of_microStep_nil (i := .pad) hin rfl (congrArg Code.seq hseq.symm) (.padAccept hlen)
  have hinit := step_of_microStep_nil (s := (s.setBlocks (blockCount s.LEN) 0).goto .init 0) (i := .init) hin rfl rfl
    .init
  exact steps_two hpad hinit

/-- From PAD the engine comes to FINISH with the digest. -/
theorem run_to_finish {s : State} (hseq : s.seq = seqWord .pad 0) (hin : s.inputs = []) (hlen : s.LEN.toNat < 2 ^ 61)
    (hready : s.MessageReady s.LEN.toNat) :
    ∃ t, steps (115 * messageBlocks s.LEN.toNat + 2) s = .next t ∧ t.seq = seqWord .finish 0 ∧
      t.H = sha256 s.message ∧
      t = { s with H := t.H, V := t.V, W := t.W, NBLK := t.NBLK, blk := t.blk, seq := t.seq } := by
  obtain ⟨k, hk⟩ : ∃ k, messageBlocks s.LEN.toNat = k + 1 :=
    Nat.exists_eq_add_one.mpr (by rw [messageBlocks]; omega)
  have hcount : s.atFirstBlock.NBLK.toNat = messageBlocks s.LEN.toNat := blockCount_toNat hlen
  have hblk : s.atFirstBlock.blk.toNat = 0 := rfl
  have hblocks : s.atFirstBlock.BlocksOk := ⟨hlen, hcount, by omega⟩
  obtain ⟨t, hrun, htseq, htH, htframe⟩ := run_blocks (s := s.atFirstBlock) (k := k) (by omega) rfl hin hblocks
    hready rfl
  refine ⟨t, ?_, htseq, htH, by rw [htframe]; rfl⟩
  rw [hk, Nat.add_comm]
  exact steps_trans (steps_to_first_block hseq hin hlen) hrun

/-- With no input left none comes. -/
theorem steps_keeps_noInput {n : Nat} {s t : State} (hin : s.inputs = []) (h : steps n s = .next t) :
    t.inputs = [] := by
  refine steps_induction (p := fun s => s.inputs = []) (fun u v hu hstep => ?_) hin h
  obtain ⟨-, rfl⟩ | ⟨i, -, -, hmicro⟩ := step_cases_of_noInput hu hstep
  · exact hu
  · exact hmicro.inputs_eq.trans hu

/-- On the way to a state that is not idle the engine is never idle: an idle engine would stay as it is. -/
theorem seq_ne_idle_of_run {m n : Nat} {s t : State} (hin : s.inputs = []) (h : steps n s = .next t)
    (ht : t.seq ≠ seqWord .idle 0) (hle : m ≤ n) : ∃ u, steps m s = .next u ∧ u.seq ≠ seqWord .idle 0 := by
  obtain ⟨d, rfl⟩ := Nat.exists_eq_add_of_le hle
  obtain ⟨u, hu, hut⟩ := exists_steps_of_add h
  refine ⟨u, hu, fun hidle => ht ?_⟩
  rw [steps_idle (steps_keeps_noInput hin hu) hidle] at hut
  rwa [← Host.Outcome.next.inj hut]

/-- A DIGEST COMPUTATION COMPUTES SHA-256: from PAD, the end state after 115·N + 3 steps. -/
theorem run_computation {s : State} (hseq : s.seq = seqWord .pad 0) (hin : s.inputs = [])
    (hlen : s.LEN.toNat < 2 ^ 61) (hready : s.MessageReady s.LEN.toNat) :
    ∃ t, steps (115 * messageBlocks s.LEN.toNat + 3) s = .next t ∧
      t = { s with H := sha256 s.message, V := t.V, W := t.W, NBLK := t.NBLK, blk := t.blk, seq := 0x000#10,
                   BUSY := false, DONE := true } := by
  obtain ⟨u, hrun, huseq, huH, huframe⟩ := run_to_finish hseq hin hlen hready
  have huin : u.inputs = [] := by rw [huframe]; exact hin
  have hfinish := step_of_microStep_nil (i := .finish) huin rfl (congrArg Code.seq huseq.symm) .finish
  have hall := steps_trans hrun (steps_one hfinish)
  refine ⟨_, hall, ?_⟩
  rw [← huH, huframe]
  rfl

/-- Settles O54: the run to FINISH and the last step; FINISH is not IDLE, so no earlier state was. -/
theorem computationYieldsSha256 : Obligations.ComputationYieldsSha256 := by
  unfold Obligations.ComputationYieldsSha256
  intro s hseq hin hlen hready
  refine ⟨run_computation hseq hin hlen hready, fun n hn => ?_⟩
  obtain ⟨u, hrun, huseq, -, -⟩ := run_to_finish hseq hin hlen hready
  have hne : u.seq ≠ seqWord .idle 0 := by rw [huseq]; decide
  exact seq_ne_idle_of_run hin hrun hne (Nat.le_of_lt_succ hn)

/-! What a computation depends on -/

/-- Two machines with the same control state. -/
structure SameControl (s t : State) : Prop where
  seq : s.seq = t.seq
  busy : s.BUSY = t.BUSY
  blk : s.blk = t.blk
  count : s.NBLK = t.NBLK
  length : s.LEN = t.LEN

/-- The control state after a micro-operation depends on the control state before it only (R175). -/
theorem MicroStep.sameControl {i : Instr} {s t s' t' : State} (h : SameControl s t) (hs : MicroStep i s s')
    (ht : MicroStep i t t') : SameControl s' t' := by
  obtain ⟨hseq, hbusy, hblk, hcount, hlen⟩ := h
  cases hs with
  | padOverflow hover =>
    cases ht with
    | padOverflow => exact ⟨rfl, rfl, hblk, hcount, hlen⟩
    | padAccept => rw [hlen] at hover; omega
  | padAccept haccept =>
    cases ht with
    | padOverflow => rw [hlen] at haccept; omega
    | padAccept => exact ⟨rfl, hbusy, rfl, congrArg blockCount hlen, hlen⟩
  | init => cases ht; exact ⟨rfl, hbusy, hblk, hcount, hlen⟩
  | ldblk => cases ht; constructor <;> simp [hbusy, hblk, hcount, hlen]
  | expandNext hi hj =>
    cases ht with
    | expandNext _ hj' =>
      obtain rfl := Fin.ext (hj.trans hj'.symm)
      constructor <;> simp [hbusy, hblk, hcount, hlen]
    | expandLast => omega
  | expandLast hi =>
    cases ht with
    | expandNext => omega
    | expandLast => constructor <;> simp [hbusy, hblk, hcount, hlen]
  | ldwork => cases ht; exact ⟨rfl, hbusy, hblk, hcount, hlen⟩
  | roundNext hj =>
    cases ht with
    | roundNext hj' =>
      obtain rfl := Fin.ext (hj.trans hj'.symm)
      exact ⟨rfl, hbusy, hblk, hcount, hlen⟩
    | roundLast => omega
  | roundLast =>
    cases ht with
    | roundNext => omega
    | roundLast => exact ⟨rfl, hbusy, hblk, hcount, hlen⟩
  | feedfwdNext hmore =>
    cases ht with
    | feedfwdNext => exact ⟨rfl, hbusy, congrArg (· + 1) hblk, hcount, hlen⟩
    | feedfwdLast => rw [hblk, hcount] at hmore; omega
  | feedfwdLast hlast =>
    cases ht with
    | feedfwdNext => rw [hblk, hcount] at hlast; omega
    | feedfwdLast => exact ⟨rfl, hbusy, hblk, hcount, hlen⟩
  | finish => cases ht; exact ⟨rfl, rfl, hblk, hcount, hlen⟩

/-- Machines that can run by themselves and have the same control state have it after every number of steps. -/
theorem exists_steps_sameControl {n : Nat} {s t : State} (hs : s.CanRun) (ht : t.CanRun) (h : SameControl s t) :
    ∃ u v, steps n s = .next u ∧ steps n t = .next v ∧ SameControl u v := by
  induction n generalizing s t with
  | zero => exact ⟨s, t, rfl, rfl, h⟩
  | succ n ih =>
    obtain ⟨s', hs'⟩ := hs.exists_step
    obtain ⟨t', ht'⟩ := ht.exists_step
    have hnext : SameControl s' t' := by
      obtain ⟨hidle, rfl⟩ | ⟨i, hwf, hseq, hmicro⟩ := step_cases_of_noInput hs.noInput hs'
      · rw [step_idle (.inl ht.noInput) (h.seq ▸ hidle), dropInput_of_nil ht.noInput] at ht'
        exact Host.Outcome.next.inj ht' ▸ h
      · exact hmicro.sameControl h (microStep_of_step ht.noInput hwf (h.seq ▸ hseq) ht')
    rw [steps_succ_of_step hs', steps_succ_of_step ht']
    exact ih (hs.of_step hs') (ht.of_step ht') hnext

/-- Settles O55: after PAD the two machines have the same control state; each ends with the digest of the same Message
and then stays as it is. -/
theorem resultDependsOnTheMessageOnly : Obligations.ResultDependsOnTheMessageOnly := by
  unfold Obligations.ResultDependsOnTheMessageOnly
  intro s t hsseq htseq hsin htin hlenEq hlen hsbusy htbusy hsready htready
  have htlen : t.LEN.toNat < 2 ^ 61 := hlenEq ▸ hlen
  refine ⟨fun n => ?control, fun hbytes n u v hn hu hv => ?digest⟩
  case control =>
    cases n with
    | zero => exact ⟨s, t, rfl, rfl, hsseq.trans htseq.symm, hsbusy.trans htbusy.symm, fun h => absurd rfl h⟩
    | succ n =>
      have start {r : State} (hseq : r.seq = seqWord .pad 0) (hin : r.inputs = []) (hr : r.LEN.toNat < 2 ^ 61)
          (hready : r.MessageReady r.LEN.toNat) :
          step r = .next ((r.setBlocks (blockCount r.LEN) 0).goto .init 0) ∧
            ((r.setBlocks (blockCount r.LEN) 0).goto .init 0).CanRun := by
        have hrun : r.CanRun := ⟨.of_pad hseq, hin, fun _ => hready⟩
        have hstep := step_of_microStep_nil (i := .pad) hin rfl (congrArg Code.seq hseq.symm) (.padAccept hr)
        exact ⟨hstep, hrun.of_step hstep⟩
      obtain ⟨hs', hsrun⟩ := start hsseq hsin hlen hsready
      obtain ⟨ht', htrun⟩ := start htseq htin htlen htready
      obtain ⟨u, v, hu, hv, huv⟩ := exists_steps_sameControl (n := n) hsrun htrun
        ⟨rfl, hsbusy.trans htbusy.symm, rfl, congrArg blockCount hlenEq, hlenEq⟩
      rw [steps_succ_of_step hs', steps_succ_of_step ht']
      exact ⟨u, v, hu, hv, huv.seq, huv.busy, fun _ => ⟨huv.blk, huv.count⟩⟩
  case digest =>
    have final {r w : State} (hseq : r.seq = seqWord .pad 0) (hin : r.inputs = []) (hr : r.LEN.toNat < 2 ^ 61)
        (hready : r.MessageReady r.LEN.toNat) (hle : 115 * messageBlocks r.LEN.toNat + 3 ≤ n)
        (hw : steps n r = .next w) : w.H = sha256 r.message := by
      obtain ⟨e, hrun, hframe⟩ := run_computation hseq hin hr hready
      obtain ⟨d, rfl⟩ := Nat.exists_eq_add_of_le hle
      rw [steps_add hrun, steps_idle (by rw [hframe]; exact hin) (by rw [hframe]; rfl)] at hw
      rw [← Host.Outcome.next.inj hw, hframe]
    have hmessage : s.message = t.message := message_congr hlenEq hbytes
    rw [final hsseq hsin hlen hsready hn hu, final htseq htin htlen htready (hlenEq ▸ hn) hv, hmessage]

end Sys2Proof.Machine
end

section
/-! The digest command of the host (30_encoding.md R110, 44_host_interface.md R207, R208): loading the Message, writing
its length, START, the polls between the engine's steps, and the reads of DHEX. -/

namespace Sys2Proof.Machine

/-! The engine under polling -/

/-- A state with other inputs to come and other answers returned; the engine reads neither. -/
def State.withHost (s : State) (ins : List Input) (outs : List Response) : State :=
  { s with inputs := ins, outputs := outs }

/-- The state with its own inputs and answers. -/
theorem withHost_self {s : State} {ins : List Input} (h : s.inputs = ins) : s.withHost ins s.outputs = s := by
  subst h
  rfl

theorem loadedSchedule_withHost (s : State) (ins : List Input) (outs : List Response) :
    loadedSchedule (s.withHost ins outs) = loadedSchedule s := rfl

/-- The engine's steps do not depend on the inputs to come and the answers returned (20_memory.md R69). -/
theorem MicroStep.withHost {i : Instr} {s t : State} (h : MicroStep i s t) (ins : List Input) (outs : List Response) :
    MicroStep i (s.withHost ins outs) (t.withHost ins outs) := by
  cases h with
  | padOverflow hlen => exact .padOverflow hlen
  | padAccept hlen => exact .padAccept hlen
  | init => exact .init
  | ldblk hready =>
    have hstep := MicroStep.ldblk (s := s.withHost ins outs) hready
    rw [loadedSchedule_withHost] at hstep
    exact hstep
  | expandNext hi hj => exact .expandNext hi hj
  | expandLast hi => exact .expandLast hi
  | ldwork => exact .ldwork
  | roundNext hj => exact .roundNext hj
  | roundLast hi => exact .roundLast hi
  | feedfwdNext hmore => exact .feedfwdNext hmore
  | feedfwdLast hlast => exact .feedfwdLast hlast
  | finish => exact .finish

/-- A step of the engine alone is its step in a turn that the host gives it. -/
theorem step_withHost_engine {s t : State} (hin : s.inputs = []) (h : step s = .next t) (rest : List Input)
    (outs : List Response) : step (s.withHost (.engine :: rest) outs) = .next (t.withHost rest outs) := by
  have hturn : (s.withHost (.engine :: rest) outs).EngineTurn := .inr ⟨rest, rfl⟩
  obtain ⟨hidle, rfl⟩ | ⟨i, hwf, hseq, hmicro⟩ := step_cases_of_noInput hin h
  · exact step_idle hturn hidle
  · exact step_of_microStep hturn hwf hseq (hmicro.withHost rest outs)

/-- A transaction of the host that is the next input is the step. -/
theorem step_withHost_host (s : State) (hw : HostWord) (rest : List Input) (outs : List Response) :
    step (s.withHost (.host hw :: rest) outs) = exec (decodeHost hw) (s.withHost rest outs) :=
  step_host rfl

/-- A poll answers STATUS. -/
theorem step_withHost_poll (s : State) (rest : List Input) (outs : List Response) :
    step (s.withHost (regrd 1 :: rest) outs) = .next (s.withHost rest (.word s.status :: outs)) :=
  step_withHost_host s _ rest outs

/-- Waiting with polls: the engine takes its n steps, and the last poll answers STATUS as they leave it. -/
theorem steps_waitPolling {n : Nat} {s t : State} (hin : s.inputs = []) (h : steps n s = .next t) (hn : n ≠ 0)
    (rest : List Input) (outs : List Response) : ∃ earlier, steps (2 * n) (s.withHost (waitPolling n ++ rest) outs) =
      .next (t.withHost rest (.word t.status :: earlier)) := by
  induction n generalizing s outs with
  | zero => exact absurd rfl hn
  | succ n ih =>
    obtain ⟨u, hstep, hut⟩ := exists_step_of_steps_succ h
    have hpoll : steps 2 (s.withHost (waitPolling (n + 1) ++ rest) outs) =
        .next (u.withHost (waitPolling n ++ rest) (.word u.status :: outs)) :=
      steps_two (step_withHost_engine hin hstep _ _) (step_withHost_poll u _ _)
    obtain rfl | hn' := Nat.eq_zero_or_pos n
    · obtain rfl : u = t := Host.Outcome.next.inj hut
      exact ⟨outs, hpoll⟩
    · obtain ⟨earlier, hrun⟩ := ih (steps_keeps_noInput hin (steps_one hstep)) hut hn'.ne' (.word u.status :: outs)
      exact ⟨earlier, by rw [show 2 * (n + 1) = 2 + 2 * n by omega]; exact steps_trans hpoll hrun⟩

/-! Loading the Message and starting -/

/-- A message write of the host, outside a computation and inside the memory. -/
theorem step_withHost_msgwr {s : State} (hbusy : s.BUSY = false) {a : BitVec 61} (ha : a.toNat < s.MSG_BYTES)
    (b : Byte) (rest : List Input) (outs : List Response) :
    step (s.withHost (msgwr a b :: rest) outs) = .next ((s.storeByte a.toNat b).withHost rest outs) := by
  have hdecode : decodeHost (.msgx (BitVec.ofBool true ++ a) b) = .msgwr a b := by
    rw [decodeHost, getLsbD_msgSel, extractLsb'_msgSel, if_pos rfl]
  rw [msgwr, step_withHost_host, hdecode]
  exact execMsgwr_of_inside (s := s.withHost rest outs) ha (fun h => Bool.false_ne_true (hbusy.symm.trans h.1)) b

/-- The bytes written one after another from address `a` on stand there in order, and nothing below `a` changes. -/
theorem steps_loadFrom (m : List Byte) {a : Nat} {s : State} (hbusy : s.BUSY = false)
    (hsize : a + m.length ≤ s.MSG_BYTES) (haddr : a + m.length ≤ 2 ^ 61) (rest : List Input) (outs : List Response) :
    ∃ mem : Memory, steps m.length (s.withHost (loadFrom a m ++ rest) outs) =
        .next (({ s with MSG := mem } : State).withHost rest outs) ∧
      (∀ k (hk : k < m.length), mem.read (a + k) = some m[k]) ∧ ∀ c < a, mem.read c = s.MSG.read c := by
  induction m generalizing a s with
  | nil => exact ⟨s.MSG, rfl, fun k hk => absurd hk (Nat.not_lt_zero k), fun _ _ => rfl⟩
  | cons b m ih =>
    rw [List.length_cons] at hsize haddr
    have ha : (BitVec.ofNat 61 a).toNat = a := by rw [BitVec.toNat_ofNat, Nat.mod_eq_of_lt (by omega)]
    have hstep := step_withHost_msgwr hbusy (a := BitVec.ofNat 61 a) (by omega) b (loadFrom (a + 1) m ++ rest) outs
    rw [ha] at hstep
    obtain ⟨mem, hrun, hheld, hbelow⟩ := ih (a := a + 1) (s := s.storeByte a b) hbusy (by simp; omega) (by omega)
    refine ⟨mem, (steps_succ_of_step hstep).trans hrun, fun k hk => ?_, fun c hc => ?_⟩
    · cases k with
      | zero => rw [Nat.add_zero, hbelow a (Nat.lt_succ_self a), storeByte_MSG, Memory.read_write_same]; rfl
      | succ k =>
        have := hheld k (Nat.lt_of_succ_lt_succ hk)
        rwa [Nat.add_right_comm] at this
    · rw [hbelow c (by omega), storeByte_MSG, Memory.read_write_other (by omega)]

/-- Writing both halves of a length writes the length, whatever MLEN held (R197). -/
theorem withMlenHi_withMlenLo (mlen len : BitVec 64) :
    withMlenHi (withMlenLo mlen (mlenLo len)) (mlenHi len) = len := by
  apply BitVec.eq_of_toNat_eq
  have hlo := mlenLo_toNat len
  rw [withMlenHi_toNat, withMlenLo_toNat, mlenHi_toNat, hlo]
  omega

/-- The length written and START, outside a computation: the engine stands at PAD with that length. -/
theorem steps_setlen_start {s : State} (hbusy : s.BUSY = false) (len : BitVec 64) (rest : List Input)
    (outs : List Response) : steps 3 (s.withHost (setlen len ++ startCommand :: rest) outs) =
      .next ((s.setMLEN len).acceptStart.withHost rest outs) := by
  have hlo : step (s.withHost (setlen len ++ startCommand :: rest) outs) =
      .next ((s.setMLEN (withMlenLo s.MLEN (mlenLo len))).withHost (regwr 3 (mlenHi len) :: startCommand :: rest)
        outs) := step_withHost_host ..
  have hhi : step ((s.setMLEN (withMlenLo s.MLEN (mlenLo len))).withHost (regwr 3 (mlenHi len) :: startCommand :: rest)
      outs) = .next ((s.setMLEN (withMlenHi (withMlenLo s.MLEN (mlenLo len)) (mlenHi len))).withHost
        (startCommand :: rest) outs) := step_withHost_host ..
  have hstart : step ((s.setMLEN len).withHost (startCommand :: rest) outs) =
      .next ((s.setMLEN len).acceptStart.withHost rest outs) :=
    (step_withHost_host ..).trans (execStart_of_not_busy hbusy)
  rw [withMlenHi_withMlenLo] at hhi
  rw [steps_succ_of_step hlo, steps_two hhi hstart]

/-! The reads of DHEX -/

/-- A read of DHEX with DONE set answers the word of its register. -/
theorem step_withHost_dhex {s : State} (hd : s.DONE = true) (q : Fin 16) (rest : List Input) (outs : List Response) :
    step (s.withHost (regrd (BitVec.ofNat 5 (16 + q.val)) :: rest) outs) =
      .next (s.withHost rest (.word (dhexWord s.H q) :: outs)) := by
  have hdecode := decodeEncodeRoundTrip (.rddhex q) rfl
  rw [regrd, step_withHost_host, Except.ok.inj hdecode]
  exact execRddhex_of_done (s := s.withHost rest outs) hd q

/-- Reads of DHEX registers, the answers newest first. -/
theorem steps_dhex_reads {s : State} (hd : s.DONE = true) (l : List (Fin 16)) (outs : List Response) :
    steps l.length (s.withHost (l.map fun q => regrd (BitVec.ofNat 5 (16 + q.val))) outs) =
      .next (s.withHost [] ((l.map fun q => Response.word (dhexWord s.H q)).reverse ++ outs)) := by
  induction l generalizing outs with
  | nil => rfl
  | cons q l ih =>
    rw [List.map_cons, List.length_cons, steps_succ_of_step (step_withHost_dhex hd q _ outs), ih]
    simp

/-- The command `rdhex` reads the sixteen registers in order. -/
theorem rdhex_eq_map : rdhex = (List.finRange 16).map fun q => regrd (BitVec.ofNat 5 (16 + q.val)) := by
  decide

/-- The command `rdhex` with DONE set: the last answer is that of register 15. -/
theorem steps_rdhex {s : State} (hd : s.DONE = true) (outs : List Response) :
    steps 16 (s.withHost rdhex outs) =
      .next (s.withHost [] ((List.ofFn fun q : Fin 16 => Response.word (dhexWord s.H q)).reverse ++ outs)) := by
  rw [rdhex_eq_map, List.ofFn_eq_map]
  exact steps_dhex_reads hd (List.finRange 16) outs

/-! The command -/

theorem length_loadFrom (m : List Byte) (a : Nat) : (loadFrom a m).length = m.length := by
  induction m generalizing a with
  | nil => rfl
  | cons b m ih => rw [loadFrom, List.length_cons, List.length_cons, ih]

theorem length_waitPolling (n : Nat) : (waitPolling n).length = 2 * n := by
  induction n with
  | zero => rfl
  | succ n ih => rw [waitPolling, List.length_cons, List.length_cons, ih]; omega

/-- The inputs of the digest command and the reads, counted. -/
theorem length_digestCommand_rdhex (m : List Byte) (n : Nat) :
    (digestCommand m n ++ rdhex).length = m.length + (3 + (2 * n + 16)) := by
  simp only [digestCommand, setlen, rdhex, List.length_append, length_loadFrom, length_waitPolling, List.length_cons,
    List.length_nil, List.length_map, List.length_range]
  omega

/-- A memory that holds the bytes of `m` from address 0 on holds `m` as the Message of that length. -/
theorem message_of_read {s : State} {m : List Byte} (hlen : s.LEN.toNat = m.length)
    (h : ∀ k (hk : k < m.length), s.MSG.read k = some m[k]) : s.message = m := by
  refine List.ext_getElem (by rw [length_message, hlen]) fun k _ hk => ?_
  simp [State.message, h k hk]

/-- From PAD with the Message `m` in memory and no failure standing, the engine comes to the digest of `m`. -/
theorem run_computation_of_held {s : State} {m : List Byte} (hseq : s.seq = seqWord .pad 0) (hin : s.inputs = [])
    (herr : s.ERR = false) (hcause : s.CAUSE = 0) (hLEN : s.LEN.toNat = m.length) (hlen : m.length < 2 ^ 61)
    (hsize : m.length ≤ s.MSG_BYTES) (hheld : ∀ k (hk : k < m.length), s.MSG.read k = some m[k]) :
    ∃ t, steps (115 * messageBlocks m.length + 3) s = .next t ∧
      t.DONE = true ∧ t.ERR = false ∧ t.status = 0x00000002 ∧ t.H = sha256 m := by
  have hready : s.MessageReady s.LEN.toNat := by
    rw [hLEN]
    exact fun a ha => ⟨ha.trans_le hsize, _, hheld a ha⟩
  obtain ⟨t, hrun, hframe⟩ := run_computation hseq hin (hLEN ▸ hlen) hready
  rw [hLEN] at hrun
  rw [message_of_read hLEN hheld] at hframe
  refine ⟨t, hrun, by rw [hframe], by rw [hframe]; exact herr, ?_, by rw [hframe]⟩
  rw [State.status, hframe]
  simp [herr, hcause]

/-- The command up to the last poll: from an idle engine the Message is loaded and its digest computed, and the last
answer is the STATUS of a finished computation. -/
theorem steps_digestCommand {s : State} {m : List Byte} (hbusy : s.BUSY = false) (hlen : m.length < 2 ^ 61)
    (hsize : m.length ≤ s.MSG_BYTES) (rest : List Input) : ∃ (t : State) (earlier : List Response),
      steps (m.length + (3 + 2 * (115 * messageBlocks m.length + 3)))
        (s.withHost (digestCommand m (115 * messageBlocks m.length + 3) ++ rest) s.outputs) =
          .next (t.withHost rest (.word 0x00000002 :: earlier)) ∧
      t.DONE = true ∧ t.ERR = false ∧ t.H = sha256 m := by
  have hLEN : (BitVec.ofNat 64 m.length).toNat = m.length := by rw [BitVec.toNat_ofNat, Nat.mod_eq_of_lt (by omega)]
  have hparts (n : Nat) : digestCommand m n ++ rest =
      loadFrom 0 m ++ (setlen (BitVec.ofNat 64 m.length) ++ startCommand :: (waitPolling n ++ rest)) := by
    simp [digestCommand]
  obtain ⟨mem, hload, hheld, -⟩ := steps_loadFrom m (a := 0) hbusy (by omega) (by omega)
    (setlen (BitVec.ofNat 64 m.length) ++
      startCommand :: (waitPolling (115 * messageBlocks m.length + 3) ++ rest)) s.outputs
  simp only [Nat.zero_add] at hheld
  have hstart := steps_setlen_start (s := { s with MSG := mem }) hbusy (BitVec.ofNat 64 m.length)
    (waitPolling (115 * messageBlocks m.length + 3) ++ rest) s.outputs
  obtain ⟨t, hrun, hdone, herr, hstatus, hH⟩ := run_computation_of_held
    (s := ((State.setMLEN { s with MSG := mem } (BitVec.ofNat 64 m.length)).acceptStart).withHost [] [])
    rfl rfl rfl rfl hLEN hlen hsize hheld
  obtain ⟨earlier, hwait⟩ := steps_waitPolling rfl hrun (Nat.succ_ne_zero _) rest s.outputs
  rw [hstatus] at hwait
  exact ⟨t, earlier, by rw [hparts]; exact steps_trans hload (steps_trans hstart hwait), hdone, herr, hH⟩

/-- Settles O56: the command up to its last poll, then the sixteen reads on top of that answer. -/
theorem digestCommandReturnsTheHexDigest : Obligations.DigestCommandReturnsTheHexDigest := by
  unfold Obligations.DigestCommandReturnsTheHexDigest
  intro s m _ hbusy hlen hsize hin
  obtain ⟨t, earlier, hrun, hdone, herr, hH⟩ := steps_digestCommand hbusy hlen hsize rdhex
  have hall := steps_trans hrun (steps_rdhex hdone _)
  rw [messageBlocks, withHost_self hin, Nat.add_assoc, Nat.add_assoc, ← length_digestCommand_rdhex, ← hin, hH] at hall
  refine ⟨_, hall, rfl, hdone, herr, ?_⟩
  rw [List.reverse_cons]
  simp [State.withHost]

end Sys2Proof.Machine
end
